-- ==== Sys2Proof/Word.lean ====
section
/-! DEFINITION. The data of U128 CORE: the 64-bit word, the 128-bit value as a pair of words, the
number a value stands for, and the three named constants (00_scope.md R8, R10, R17; 10_state.md
R20, R23). Words are bit vectors because the spec numbers, shifts and masks their bits. -/

namespace Sys2Proof

/-- "A word is 64 bits" (R8); an unsigned quantity (R14). -/
abbrev Word := BitVec 64

/-- "An ordered pair of unscoped 64-bit unsigned words, `lo` (bits 0–63) and `hi` (bits 64–127)"
(R20). The fields stand in the order in which the spec writes a pair, so `⟨x, y⟩` here is `(x, y)`
there. Every pair is legal. -/
structure Value where
  lo : Word
  hi : Word
  deriving DecidableEq, Repr, Inhabited

namespace Value

/-- The number a value stands for, `val(v) = v.lo + 2⁶⁴ · v.hi` (R10). -/
def val (v : Value) : Nat := v.lo.toNat + 2 ^ 64 * v.hi.toNat

/-- The spec's `mk(n)`: the value `(n mod 2⁶⁴, ⌊n / 2⁶⁴⌋ mod 2⁶⁴)` (R10). -/
def ofNat (n : Nat) : Value := ⟨BitVec.ofNat 64 n, BitVec.ofNat 64 (n / 2 ^ 64)⟩

/-- The 128 bits of a value: bit `i` of `lo` is bit `i`, bit `i` of `hi` is bit `64 + i` (R41). -/
def bits (v : Value) : BitVec 128 := v.hi ++ v.lo

/-- The constant `ZERO = (0,0)` (R23). -/
def zero : Value := ⟨0#64, 0#64⟩

/-- The constant `ONE = (1,0)` (R23). -/
def one : Value := ⟨1#64, 0#64⟩

/-- The constant `MAX = (2⁶⁴−1, 2⁶⁴−1)` (R23). -/
def max : Value := ⟨0xFFFFFFFFFFFFFFFF#64, 0xFFFFFFFFFFFFFFFF#64⟩

end Value

end Sys2Proof
end

