-- ==== Sys2Proof/Syntax.lean ====
section
/-! DEFINITION. The instructions of U128 CORE: one constructor per row of spec/opcode_table.json,
in the table's order (30_encoding.md R60). A constructor carries exactly the operand words that the
row's form reads (R57); the words a form ignores have no effect (R63) and are not part of the
instruction (log 13). -/

namespace Sys2Proof

/-- A decoded command. `a`, `b` are the operands A and B of 00_scope.md R15; `w` is the word W and
`n` the shift amount, both other names for `B.lo`. -/
inductive Instr where
  /-- MUL64, form ww: `a = A.lo`, `b = B.lo` (R80). -/
  | mul64 (a b : Word)
  /-- SHL, form AW: the amount is the whole word `n` (R91). -/
  | shl (a : Value) (n : Word)
  /-- SHR, form AW (R92). -/
  | shr (a : Value) (n : Word)
  /-- NOT, form A (R101). -/
  | not (a : Value)
  /-- AND, form AB (R102). -/
  | and (a b : Value)
  /-- OR, form AB (R103). -/
  | or (a b : Value)
  /-- XOR, form AB (R104). -/
  | xor (a b : Value)
  /-- CMP, form AB (R111). -/
  | cmp (a b : Value)
  /-- ADD, form AB (R121). -/
  | add (a b : Value)
  /-- ADDW, form AW (R122). -/
  | addw (a : Value) (w : Word)
  /-- MULW, form AW (R131). -/
  | mulw (a : Value) (w : Word)
  /-- MUL, form AB (R132). -/
  | mul (a b : Value)
  /-- ZERO, form N (R141). -/
  | zero
  /-- ONE, form N (R142). -/
  | one
  /-- MAX, form N (R143). -/
  | max
  /-- FROMW, form a: the word `A.lo` (R144). -/
  | fromw (w : Word)
  /-- FROMP, form A: the pair `(A.lo, A.hi)` (R145). -/
  | fromp (a : Value)
  deriving DecidableEq, Repr

end Sys2Proof
end

