-- ==== Sys2Proof/Syntax/Source.lean ====
section
/-! DEFINITION. The shapes around an instruction: the operand forms (30_encoding.md R57), the
command as it stands on the port (10_state.md R32, 30_encoding.md R56), and the assembler's line as
an abstract term (R65, R67). -/

namespace Sys2Proof

/-- The six operand forms of R57. -/
inductive Form where
  /-- `N`: reads nothing. -/
  | none
  /-- `a`: reads A.lo. -/
  | word
  /-- `A`: reads A.lo, A.hi. -/
  | value
  /-- `ww`: reads A.lo, B.lo. -/
  | wordWord
  /-- `AW`: reads A.lo, A.hi, B.lo. -/
  | valueWord
  /-- `AB`: reads all four words. -/
  | valueValue
  deriving DecidableEq, Repr

/-- An opcode, `OPW` = 8 bits (R9, R55). -/
abbrev Opcode := BitVec 8

/-- A command as the port carries it (R32): `cmd_op` and the four operand words. Every one of the
2²⁶⁴ commands is legal to present (R35). -/
structure Command where
  op : Opcode
  aLo : Word
  aHi : Word
  bLo : Word
  bHi : Word
  deriving DecidableEq, Repr

/-- Operand A of a command (R15). -/
def Command.a (c : Command) : Value := ⟨c.aLo, c.aHi⟩

/-- Operand B of a command (R15). -/
def Command.b (c : Command) : Value := ⟨c.bLo, c.bHi⟩

/-- An operand of an assembler line (R65). The numbers are as written and may be out of range: that
is for `Line.wellFormed` to refuse. -/
inductive Operand where
  /-- A bare number: a `<word>`, or the `<value>` `(w, 0)`. -/
  | word (n : Nat)
  /-- A pair `(lo, hi)`, low word first. -/
  | pair (lo hi : Nat)
  /-- The name `ZERO` standing for its pair. -/
  | zero
  /-- The name `ONE` standing for its pair. -/
  | one
  /-- The name `MAX` standing for its pair. -/
  | max
  deriving DecidableEq, Repr

/-- One assembler line without its comment: a mnemonic or pseudo-instruction and its operands, the
first being A (R65). -/
structure Line where
  mnemonic : String
  operands : List Operand
  deriving DecidableEq, Repr

/-- The pseudo-instructions of R67. -/
inductive Pseudo where
  | mov | eq | lt | gt | ne | le | ge
  deriving DecidableEq, Repr

end Sys2Proof
end

