-- ==== Sys2Proof/WellFormed.lean ====
section
/-! DEFINITION. Which terms are well formed. Every `Instr` and every `Command` is: all pairs of words
are legal values (10_state.md R20), every command has a response (R35) and ignored words are never
checked (30_encoding.md R63), so their types say all there is. What can be ill formed is an assembler
line (R65): an unknown mnemonic, a number of 2⁶⁴ or more, or operands that do not fit the form. -/

namespace Sys2Proof

/-- The operand form of each mnemonic and pseudo-instruction, by its upper-case name (R57, R60, R67).
The pseudo-instructions take the form of the command they expand to. -/
def formOf (mnemonic : String) : Option Form :=
  if mnemonic ∈ ["ZERO", "ONE", "MAX"] then some .none
  else if mnemonic = "FROMW" then some .word
  else if mnemonic ∈ ["NOT", "FROMP", "MOV"] then some .value
  else if mnemonic = "MUL64" then some .wordWord
  else if mnemonic ∈ ["SHL", "SHR", "ADDW", "MULW"] then some .valueWord
  else if mnemonic ∈ ["AND", "OR", "XOR", "CMP", "ADD", "MUL",
      "EQ", "LT", "GT", "NE", "LE", "GE"] then some .valueValue
  else none

/-- A number written as a word is "below 2⁶⁴" (R65). -/
def inRange (n : Nat) : Bool := n < 2 ^ 64

/-- A `<word>` operand: a bare number in range (R65). -/
def Operand.isWord : Operand → Bool
  | .word n => inRange n
  | .pair _ _ | .zero | .one | .max => false

/-- A `<value>` operand: a pair, a constant's name, or a bare word standing for `(w, 0)` (R65). -/
def Operand.isValue : Operand → Bool
  | .word n => inRange n
  | .pair lo hi => inRange lo && inRange hi
  | .zero | .one | .max => true

/-- The operands fit the form: their number, and a word where a word is asked for (R65). -/
def Form.accepts : Form → List Operand → Bool
  | .none, [] => true
  | .word, [x] => x.isWord
  | .value, [x] => x.isValue
  | .wordWord, [x, y] => x.isWord && y.isWord
  | .valueWord, [x, y] => x.isValue && y.isWord
  | .valueValue, [x, y] => x.isValue && y.isValue
  | _, _ => false

/-- A line the assembler of R65 accepts. -/
def Line.wellFormed (l : Line) : Bool :=
  match formOf l.mnemonic with
  | some f => f.accepts l.operands
  | none => false

end Sys2Proof
end

