-- ==== Sys2Proof/Decode.lean ====
section
/-! DEFINITION. The command record, the opcode map, the decoder and the encoder (30_encoding.md R55
to R63, R66), and the reading of a row of spec/opcode_table.json as a command. -/

namespace Sys2Proof

/-- The command record `cmd[263:0]`, bit 0 least significant (R56). -/
abbrev CmdRecord := BitVec 264

/-- `cmd = {op, b_hi, b_lo, a_hi, a_lo}` (R56, R66). -/
def Command.toRecord (c : Command) : CmdRecord :=
  c.op ++ c.bHi ++ c.bLo ++ c.aHi ++ c.aLo

/-- The fields of a record at the bit positions of R56. -/
def Command.ofRecord (r : CmdRecord) : Command where
  op := r.extractLsb' 256 8
  bHi := r.extractLsb' 192 64
  bLo := r.extractLsb' 128 64
  aHi := r.extractLsb' 64 64
  aLo := r.extractLsb' 0 64

/-- One row of the opcode map of R60: opcode, mnemonic, form, and the instruction it makes of a
command by taking the words its form reads (R57). -/
structure OpcodeRow where
  op : Opcode
  mnemonic : String
  form : Form
  make : Command → Instr

/-- The 17 defined opcodes, in the order of R60. -/
def opcodeTable : List OpcodeRow := [
  ⟨0x10#8, "MUL64", .wordWord, fun c => .mul64 c.aLo c.bLo⟩,
  ⟨0x20#8, "SHL", .valueWord, fun c => .shl c.a c.bLo⟩,
  ⟨0x21#8, "SHR", .valueWord, fun c => .shr c.a c.bLo⟩,
  ⟨0x30#8, "NOT", .value, fun c => .not c.a⟩,
  ⟨0x31#8, "AND", .valueValue, fun c => .and c.a c.b⟩,
  ⟨0x32#8, "OR", .valueValue, fun c => .or c.a c.b⟩,
  ⟨0x33#8, "XOR", .valueValue, fun c => .xor c.a c.b⟩,
  ⟨0x40#8, "CMP", .valueValue, fun c => .cmp c.a c.b⟩,
  ⟨0x50#8, "ADD", .valueValue, fun c => .add c.a c.b⟩,
  ⟨0x51#8, "ADDW", .valueWord, fun c => .addw c.a c.bLo⟩,
  ⟨0x60#8, "MULW", .valueWord, fun c => .mulw c.a c.bLo⟩,
  ⟨0x61#8, "MUL", .valueValue, fun c => .mul c.a c.b⟩,
  ⟨0x70#8, "ZERO", .none, fun _ => .zero⟩,
  ⟨0x71#8, "ONE", .none, fun _ => .one⟩,
  ⟨0x72#8, "MAX", .none, fun _ => .max⟩,
  ⟨0x73#8, "FROMW", .word, fun c => .fromw c.aLo⟩,
  ⟨0x74#8, "FROMP", .value, fun c => .fromp c.a⟩]

/-- The row of an opcode, if it is defined (R61). -/
def rowOf (op : Opcode) : Option OpcodeRow := opcodeTable.find? (fun row => row.op == op)

/-- The row of a mnemonic (R60). -/
def rowNamed (mnemonic : String) : Option OpcodeRow :=
  opcodeTable.find? (fun row => row.mnemonic == mnemonic)

/-- Why a command has no instruction. -/
inductive DecodeError where
  /-- The opcode is one of the 239 reserved values of R62. -/
  | reservedOpcode (op : Opcode)
  deriving DecidableEq, Repr

/-- Decoding a command on the port: "look the 8 bits up in rule R60; if found, execute that row's
rule; if not, rule R62" (R61). -/
def decodeCommand (c : Command) : Except DecodeError Instr :=
  match rowOf c.op with
  | some row => .ok (row.make c)
  | none => .error (.reservedOpcode c.op)

/-- Decoding a command record, total on all 264-bit patterns. -/
def decode (r : CmdRecord) : Except DecodeError Instr := decodeCommand (Command.ofRecord r)

/-- The reserved opcodes of R62, as that rule lists them:
0x00–0x0F, 0x11–0x1F, 0x22–0x2F, 0x34–0x3F, 0x41–0x4F, 0x52–0x5F, 0x62–0x6F, 0x75–0xFF. -/
def reservedOpcode (op : Opcode) : Bool :=
  let n := op.toNat
  n ≤ 0x0F || (0x11 ≤ n && n ≤ 0x1F) || (0x22 ≤ n && n ≤ 0x2F) || (0x34 ≤ n && n ≤ 0x3F)
    || (0x41 ≤ n && n ≤ 0x4F) || (0x52 ≤ n && n ≤ 0x5F) || (0x62 ≤ n && n ≤ 0x6F)
    || (0x75 ≤ n && n ≤ 0xFF)

/-- Which operand words a form reads (R57): A.lo, A.hi, B.lo, B.hi. -/
def Form.reads : Form → Bool × Bool × Bool × Bool
  | .none => (false, false, false, false)
  | .word => (true, false, false, false)
  | .value => (true, true, false, false)
  | .wordWord => (true, false, true, false)
  | .valueWord => (true, true, true, false)
  | .valueValue => (true, true, true, true)

/-- A command with the words its form does not read set to zero, as the assembler writes them (R63,
R65). -/
def Command.zeroIgnored (f : Form) (c : Command) : Command where
  op := c.op
  aLo := if f.reads.1 then c.aLo else 0#64
  aHi := if f.reads.2.1 then c.aHi else 0#64
  bLo := if f.reads.2.2.1 then c.bLo else 0#64
  bHi := if f.reads.2.2.2 then c.bHi else 0#64

/-- The command of an instruction, its opcode from R60 and every word its form ignores zero (R65,
R66). -/
def encodeCommand : Instr → Command
  | .mul64 a b => ⟨0x10#8, a, 0#64, b, 0#64⟩
  | .shl a n => ⟨0x20#8, a.lo, a.hi, n, 0#64⟩
  | .shr a n => ⟨0x21#8, a.lo, a.hi, n, 0#64⟩
  | .not a => ⟨0x30#8, a.lo, a.hi, 0#64, 0#64⟩
  | .and a b => ⟨0x31#8, a.lo, a.hi, b.lo, b.hi⟩
  | .or a b => ⟨0x32#8, a.lo, a.hi, b.lo, b.hi⟩
  | .xor a b => ⟨0x33#8, a.lo, a.hi, b.lo, b.hi⟩
  | .cmp a b => ⟨0x40#8, a.lo, a.hi, b.lo, b.hi⟩
  | .add a b => ⟨0x50#8, a.lo, a.hi, b.lo, b.hi⟩
  | .addw a w => ⟨0x51#8, a.lo, a.hi, w, 0#64⟩
  | .mulw a w => ⟨0x60#8, a.lo, a.hi, w, 0#64⟩
  | .mul a b => ⟨0x61#8, a.lo, a.hi, b.lo, b.hi⟩
  | .zero => ⟨0x70#8, 0#64, 0#64, 0#64, 0#64⟩
  | .one => ⟨0x71#8, 0#64, 0#64, 0#64, 0#64⟩
  | .max => ⟨0x72#8, 0#64, 0#64, 0#64, 0#64⟩
  | .fromw w => ⟨0x73#8, w, 0#64, 0#64, 0#64⟩
  | .fromp a => ⟨0x74#8, a.lo, a.hi, 0#64, 0#64⟩

/-- The record of an instruction (R66). -/
def encode (i : Instr) : CmdRecord := (encodeCommand i).toRecord

/-- The operand form of an instruction (R57). -/
def Instr.form : Instr → Form
  | .mul64 _ _ => .wordWord
  | .shl _ _ | .shr _ _ | .addw _ _ | .mulw _ _ => .valueWord
  | .not _ | .fromp _ => .value
  | .and _ _ | .or _ _ | .xor _ _ | .cmp _ _ | .add _ _ | .mul _ _ => .valueValue
  | .zero | .one | .max => .none
  | .fromw _ => .word

/-- The command a row of spec/opcode_table.json stands for (log 4). The table's `match` and `fixed`
number the 8 bits of `op` alone, so a word of at most 8 bits is the opcode and every operand word is
zero; a wider word is the record of R56 (the table's `match_full`) with the bits above `nbits` zero. -/
def tableCommand (nbits w : Nat) : Command :=
  if nbits ≤ 8 then ⟨BitVec.ofNat 8 (w % 2 ^ nbits), 0#64, 0#64, 0#64, 0#64⟩
  else Command.ofRecord (BitVec.ofNat 264 (w % 2 ^ nbits))

/-- The instruction the decoder reads from a row's word, none where it refuses. -/
def decodeTableWord (nbits w : Nat) : Option Instr := (decode (tableCommand nbits w).toRecord).toOption

end Sys2Proof
end

