-- ==== Sys2Proof/Machine/State.lean ====
section
/-! DEFINITION. The state of U128 CORE: the response register `RSP`, which is the whole architectural
state (10_state.md R25), and the host's pending events, which are the model's own (log 1). The reset
state (R33). The reasons a step could stop for: none that the spec gives (60_exceptions.md R150). -/

namespace Sys2Proof.Machine

/-- The response register, 133 bits (R25): `valid`, the four status bits and the result value. -/
structure Rsp where
  /-- 1 once any command has been executed since reset. -/
  valid : Bool
  /-- 1 when the last command's opcode was reserved. -/
  ill : Bool
  /-- CMP result: A > B. -/
  gt : Bool
  /-- CMP result: A == B. -/
  eq : Bool
  /-- CMP result: A < B. -/
  lt : Bool
  /-- The result value. -/
  r : Value
  deriving DecidableEq, Repr

/-- What the host does at the block's ports, seen from the architectural step: it transfers a command
(R32), or applies reset, "at any time and any number of times" (R170). -/
inductive Input where
  | command (c : Command)
  | reset
  deriving DecidableEq, Repr

/-- `rsp` is the architectural state. `inputs` holds what the host is about to do, next event first:
the sequence of commands is the host's (R27, R181). DESIGN CHOICE (log 1, safe): no rule of the spec
makes it state of the block, and no meaning of an instruction reads it. -/
structure State where
  rsp : Rsp
  inputs : List Input
  deriving DecidableEq, Repr

/-- Stops of the machine. It has no constructor, because "all operations are total functions ...
never a fault or exception" (R150) and a reserved opcode is reported in a normal response (R152):
nothing raises a fault, which is exact and hence safe. -/
inductive Fault
  deriving DecidableEq, Repr

/-- Refusals. Every row of the opcode table has its meaning, so nothing raises one. -/
inductive Refusal where
  /-- Raised by an arm of `exec` whose instruction has no meaning yet; there is none. Safe: a refused
  instruction proves nothing. -/
  | notModelled (mnemonic : String)
  deriving DecidableEq, Repr

/-- "After reset every field of `RSP` is 0" (R33). -/
def Rsp.reset : Rsp :=
  { valid := false, ill := false, gt := false, eq := false, lt := false, r := ⟨0#64, 0#64⟩ }

/-- The machine right after reset: `RSP` all zero, "there is no other state to reset" (R33), and
nothing yet presented by the host (log 1). -/
def State.reset : State := { rsp := Rsp.reset, inputs := [] }

end Sys2Proof.Machine
end

