-- ==== Sys2Proof/Machine/Ops.lean ====
section
/-! DEFINITION. The shared operations: the 64-bit word primitives (00_scope.md R12), the two ways a
command ends (`respond` of R15, `report_ill` of 60_exceptions.md R152), reset (R170), idling (R163,
R173), and the presenting of a command by the host. The block has no trap entry and no trap return
(R157, R158): `reportIll` is the one report it makes. -/

namespace Sys2Proof.Machine

/-- `add64(x, y) = (x + y) mod 2⁶⁴` (R12). -/
def add64 (x y : Word) : Word := BitVec.ofNat 64 (x.toNat + y.toNat)

/-- `low32(w) = w mod 2³²` (R11). -/
def low32 (w : Word) : Word := BitVec.ofNat 64 (w.toNat % 2 ^ 32)

/-- `high32(w) = ⌊w / 2³²⌋` (R11). -/
def high32 (w : Word) : Word := BitVec.ofNat 64 (w.toNat / 2 ^ 32)

theorem low32_lt (w : Word) : (low32 w).toNat < 2 ^ 32 := by
  simp only [low32, BitVec.toNat_ofNat]; omega

theorem high32_lt (w : Word) : (high32 w).toNat < 2 ^ 32 := by
  have := w.isLt
  simp only [high32, BitVec.toNat_ofNat]; omega

/-- `mul32(x, y) = x · y`, "exact", "defined for x, y < 2³²" only (R12): the bounds are preconditions. -/
def mul32 (x y : Word) (_hx : x.toNat < 2 ^ 32) (_hy : y.toNat < 2 ^ 32) : Word :=
  BitVec.ofNat 64 (x.toNat * y.toNat)

/-- `shl64(x, k) = (x · 2ᵏ) mod 2⁶⁴`, "defined for 0 ≤ k ≤ 63 only" (R12). The precondition is an
argument, so that no use can ask for a shift by 64 (R176; 93_implementation_defined.md U1, log 17). -/
def shl64 (x : Word) (k : Nat) (_h : k ≤ 63) : Word := BitVec.ofNat 64 (x.toNat * 2 ^ k)

/-- `shr64(x, k) = ⌊x / 2ᵏ⌋`, "defined for 0 ≤ k ≤ 63 only" (R12, R176). -/
def shr64 (x : Word) (k : Nat) (_h : k ≤ 63) : Word := BitVec.ofNat 64 (x.toNat / 2 ^ k)

/-- `not64(x) = 2⁶⁴ − 1 − x` (R12). -/
def not64 (x : Word) : Word := BitVec.ofNat 64 (2 ^ 64 - 1 - x.toNat)

/-- `and64`, bit by bit (R12). -/
def and64 (x y : Word) : Word := x &&& y

/-- `or64`, bit by bit (R12). -/
def or64 (x y : Word) : Word := x ||| y

/-- `xor64`, bit by bit (R12). -/
def xor64 (x y : Word) : Word := x ^^^ y

/-- `RSP.r <- v; RSP.lt <- 0; RSP.eq <- 0; RSP.gt <- 0; RSP.ill <- 0; RSP.valid <- 1`, the spec's
`respond(v)` (R15). It writes all of `RSP` (R25) and nothing else. -/
def respond (v : Value) (s : State) : State :=
  { s with rsp := { valid := true, ill := false, gt := false, eq := false, lt := false, r := v } }

/-- The illegal-opcode report of R152: a normal response with `ill = 1` and everything else zero. It is
no trap: nothing is saved and the block is ready for the next command. -/
def reportIll (s : State) : State :=
  { s with rsp := { valid := true, ill := true, gt := false, eq := false, lt := false,
                    r := ⟨0#64, 0#64⟩ } }

/-- The host applies reset: `RSP` goes to its all-zero state (R170; log 8). -/
def applyReset (s : State) : State := { s with rsp := Rsp.reset }

/-- The host does nothing: "with no command on its port the block does nothing and `RSP` keeps its
value" (R163, R173; log 2). -/
def idle (s : State) : State := s

/-- The state once the host's next event has been taken. -/
def withInputs (rest : List Input) (s : State) : State := { s with inputs := rest }

/-- The host presents a command, to be transferred before anything else it was about to do. -/
def present (c : Command) (s : State) : State := { s with inputs := .command c :: s.inputs }

end Sys2Proof.Machine
end

