-- ==== Sys2Proof/Machine/Operands.lean ====
section
/-! DEFINITION. Operand assembly (30_encoding.md R59): there are no immediates, nothing is masked, and
everything narrower is zero-extended (00_scope.md R14). Which words a form reads is in the opcode map
of Decode.lean (R57). -/

namespace Sys2Proof.Machine

/-- "A word operand W used where a value is needed stands for the value `(W, 0)`" (R59, R16 `zext_128`). -/
def wordValue (w : Word) : Value := ⟨w, 0#64⟩

/-- "The shift amount is the whole 64-bit word `n = B.lo`, an unsigned number from 0 to 2⁶⁴−1", never
reduced (R59). -/
def shiftAmount (n : Word) : Nat := n.toNat

/-- A word placed in the high half, `(0, w)`: a 64-bit quantity shifted left by 64 (R131, R132). -/
def highValue (w : Word) : Value := ⟨0#64, w⟩

end Sys2Proof.Machine
end

