-- ==== Sys2Proof/Machine/Add.lean ====
section
/-! DEFINITION. ADD128, ADD and ADDW (44_add.md R120 to R123). -/

namespace Sys2Proof.Machine

/-- `carry = 1` "if the new `lo` is numerically less than the added operand's `lo`" (R120); `q` is the
added operand's word as sampled (70_reset_and_hazards.md R178). -/
def carryOf (s q : Word) : Word := if s.toNat < q.toNat then 1#64 else 0#64

/-- The adder of R121, value plus value. -/
def add128 (a b : Value) : Value :=
  let lo := add64 a.lo b.lo
  ⟨lo, add64 (add64 a.hi b.hi) (carryOf lo b.lo)⟩

/-- The adder of R122, value plus word. -/
def addWord (a : Value) (w : Word) : Value :=
  let lo := add64 a.lo w
  ⟨lo, add64 a.hi (carryOf lo w)⟩

/-- ADD (R121). -/
def execAdd (a b : Value) (s : State) : Host.Outcome State Fault Refusal :=
  .next (respond (add128 a b) s)

/-- ADDW (R122). -/
def execAddw (a : Value) (w : Word) (s : State) : Host.Outcome State Fault Refusal :=
  .next (respond (addWord a w) s)

end Sys2Proof.Machine
end

