-- ==== Sys2Proof/Machine/Flags.lean ====
section
/-! DEFINITION. The flag computations (10_state.md R28): the three outcomes of a comparison, lexicographic
on `(hi, lo)` with `hi` first (R21, R22; 43_compare.md R111), and the response that carries them. Every
other command writes `lt = eq = gt = 0`, which `respond` does. -/

namespace Sys2Proof.Machine

/-- "`x == y` exactly when `x.lo == y.lo` and `x.hi == y.hi`" (R21); `eq` of R111. -/
def valueEq (a b : Value) : Bool := a.hi == b.hi && a.lo == b.lo

/-- `lt = (A.hi < B.hi) or ((A.hi == B.hi) and (A.lo < B.lo))`, the words as unsigned numbers (R22, R111). -/
def valueLt (a b : Value) : Bool :=
  decide (a.hi.toNat < b.hi.toNat) || (a.hi == b.hi && decide (a.lo.toNat < b.lo.toNat))

/-- `gt = (A.hi > B.hi) or ((A.hi == B.hi) and (A.lo > B.lo))` (R111). -/
def valueGt (a b : Value) : Bool :=
  decide (a.hi.toNat > b.hi.toNat) || (a.hi == b.hi && decide (a.lo.toNat > b.lo.toNat))

/-- The response of CMP: the flags, and ZERO as the result (R111). -/
def respondOrder (lt eq gt : Bool) (s : State) : State :=
  { s with rsp := { valid := true, ill := false, gt := gt, eq := eq, lt := lt, r := ⟨0#64, 0#64⟩ } }

end Sys2Proof.Machine
end

