-- ==== Sys2Proof/Machine/Compare.lean ====
section
/-! DEFINITION. CMP128 and CMP (43_compare.md R110 to R112). -/

namespace Sys2Proof.Machine

/-- CMP: the three flags as computed, `r` = ZERO (R111). -/
def execCmp (a b : Value) (s : State) : Host.Outcome State Fault Refusal :=
  .next (respondOrder (valueLt a b) (valueEq a b) (valueGt a b) s)

end Sys2Proof.Machine
end

