-- ==== Sys2Proof/Machine/Construct.lean ====
section
/-! DEFINITION. The constructors and constants as commands: ZERO, ONE, MAX, FROMW, FROMP
(46_construct.md R140 to R145). -/

namespace Sys2Proof.Machine

/-- ZERO: `respond((0, 0))` (R141). -/
def execZero (s : State) : Host.Outcome State Fault Refusal := .next (respond Value.zero s)

/-- ONE: `respond((1, 0))` (R142). -/
def execOne (s : State) : Host.Outcome State Fault Refusal := .next (respond Value.one s)

/-- MAX: `respond((2⁶⁴−1, 2⁶⁴−1))` (R143). -/
def execMax (s : State) : Host.Outcome State Fault Refusal := .next (respond Value.max s)

/-- FROMW: `respond((A.lo, 0))` (R144). -/
def execFromw (w : Word) (s : State) : Host.Outcome State Fault Refusal :=
  .next (respond (wordValue w) s)

/-- FROMP: `respond((A.lo, A.hi))` (R145). -/
def execFromp (a : Value) (s : State) : Host.Outcome State Fault Refusal := .next (respond a s)

end Sys2Proof.Machine
end

