-- ==== Sys2Proof/Machine/Logic.lean ====
section
/-! DEFINITION. LOGIC128, NOT, AND, OR and XOR: "applied independently word-wise to `(lo, hi)`"
(42_bitwise.md R100 to R105). -/

namespace Sys2Proof.Machine

/-- A word operation applied to one operand word by word (R100). -/
def wordwise (f : Word → Word) (a : Value) : Value := ⟨f a.lo, f a.hi⟩

/-- A word operation applied to the operand words of the same name (R100). -/
def wordwise₂ (f : Word → Word → Word) (a b : Value) : Value := ⟨f a.lo b.lo, f a.hi b.hi⟩

/-- NOT: `respond((not64(A.lo), not64(A.hi)))` (R101). -/
def execNot (a : Value) (s : State) : Host.Outcome State Fault Refusal :=
  .next (respond (wordwise not64 a) s)

/-- AND (R102). -/
def execAnd (a b : Value) (s : State) : Host.Outcome State Fault Refusal :=
  .next (respond (wordwise₂ and64 a b) s)

/-- OR (R103). -/
def execOr (a b : Value) (s : State) : Host.Outcome State Fault Refusal :=
  .next (respond (wordwise₂ or64 a b) s)

/-- XOR (R104). -/
def execXor (a b : Value) (s : State) : Host.Outcome State Fault Refusal :=
  .next (respond (wordwise₂ xor64 a b) s)

end Sys2Proof.Machine
end

