-- ==== Sys2Proof/Config.lean ====
section
/-! DEFINITION. What is fixed when an instance is built (00_scope.md R9): the multiplier strategy and
how it is chosen (40_mul64.md R81, R82), and the open parameters LATENCY and RESET_KIND. `OPW` (8
bits) and `SHW` (64 bits) are fixed by the spec and stand as the types of the opcode and of a word. -/

namespace Sys2Proof

/-- The "three interchangeable strategies" of the multiplier (R81), the values of `MUL_STRATEGY`. -/
inductive MulStrategy where
  /-- Strategy 1, "Hardware double-width multiply" (R86). -/
  | primitive
  /-- Strategy 2, "Native wide-integer cast" (R87). -/
  | wide
  /-- Strategy 3, "Portable 32-bit-limb algorithm" (R83). -/
  | limb
  deriving DecidableEq, Repr, Inhabited

/-- What the platform of an instance offers, as far as the selection policy asks (R82, R86, R87). -/
structure Platform where
  hasPrimitive : Bool
  hasWide : Bool
  deriving DecidableEq, Repr

/-- "Selection policy: prefer strategy 1, else strategy 2, else strategy 3" (R82). -/
def Platform.select (p : Platform) : MulStrategy :=
  if p.hasPrimitive then .primitive else if p.hasWide then .wide else .limb

/-- The platform of the modelled instance. DESIGN CHOICE (log 7, safe): it offers neither a double-width
primitive nor a wide type, so that the instance holds the spec's reference strategy (D20). No response
depends on it: the statements about multiplication hold for every strategy. -/
def Config.platform : Platform := ⟨false, false⟩

/-- `MUL_STRATEGY` of the modelled instance, fixed at build (R9, R82). -/
def Config.mulStrategy : MulStrategy := Config.platform.select

/-- `LATENCY` (R9, R180): "an open natural number, possibly different per opcode and per
`MUL_STRATEGY`". It has no body, so no proof can see a number; only the port level reads it. -/
opaque Config.latency : MulStrategy → BitVec 8 → Nat

/-- "Whether `rst` is synchronous or asynchronous" (70_reset_and_hazards.md R170). -/
inductive ResetTiming where
  | synchronous
  | asynchronous
  deriving DecidableEq, Repr, Inhabited

/-- `RESET_KIND` (R9, R170): the open kind of the `rst` pin. What each field does to the pin is in
Machine/Reset.lean. -/
structure ResetKind where
  /-- Synchronous or asynchronous. -/
  timing : ResetTiming
  /-- The polarity: the level of `rst` at which it is active. -/
  activeLevel : Bool
  /-- The minimum length of a reset, in ticks. -/
  minTicks : Nat
  /-- Whether a reset shorter than the minimum is applied as well, which the spec leaves open (log 16). -/
  shortCounts : Bool
  deriving DecidableEq, Repr, Inhabited

/-- `RESET_KIND` of the modelled instance. It is open (R9), so it has no body. -/
opaque Config.resetKind : ResetKind

end Sys2Proof
end

