-- ==== Sys2Proof/Machine/Mul64.lean ====
section
/-! DEFINITION. MULT64, the 64×64→128 multiplier in its three strategies, and MUL64 (40_mul64.md R80 to
R87). The limb strategy is the spec's reference (92_eei_decisions.md D20). -/

namespace Sys2Proof.Machine

/-- Every named word of the limb algorithm of R83, so that a claim or a test can speak of the
intermediate words. -/
structure LimbTrace where
  p00 : Word
  p01 : Word
  p10 : Word
  p11 : Word
  x : Word
  y : Word
  lo : Word
  hi : Word
  deriving DecidableEq, Repr

/-- The limb algorithm of R83, "only 64-bit arithmetic primitives": every sum is `add64`, every word 64
bits. -/
def limbs (a b : Word) : LimbTrace :=
  let p00 := mul32 (low32 a) (low32 b) (low32_lt a) (low32_lt b)
  let p01 := mul32 (low32 a) (high32 b) (low32_lt a) (high32_lt b)
  let p10 := mul32 (high32 a) (low32 b) (high32_lt a) (low32_lt b)
  let p11 := mul32 (high32 a) (high32 b) (high32_lt a) (high32_lt b)
  let x := add64 (add64 (high32 p00) (low32 p01)) (low32 p10)
  let y := add64 (add64 (add64 (high32 p01) (high32 p10)) (low32 p11)) (high32 x)
  { p00, p01, p10, p11, x, y
    lo := or64 (low32 p00) (shl64 x 32 (by decide))
    hi := add64 y (shl64 (high32 p11) 32 (by decide)) }

/-- Strategy 3: the pair `(lo, hi)` of R83, which meets the contract of R80 exactly (R85). -/
def mul64Limb (a b : Word) : Value := ⟨(limbs a b).lo, (limbs a b).hi⟩

/-- Strategy 1, the direct primitive: `lo = (a·b) mod 2⁶⁴`, `hi = ⌊a·b / 2⁶⁴⌋` (R86). -/
def mul64Primitive (a b : Word) : Value :=
  ⟨BitVec.ofNat 64 (a.toNat * b.toNat), BitVec.ofNat 64 (a.toNat * b.toNat / 2 ^ 64)⟩

/-- Strategy 2, the wide cast: zero-extend both to 128 bits, multiply modulo 2¹²⁸, split (R87). -/
def mul64Wide (a b : Word) : Value :=
  let p : BitVec 128 := a.setWidth 128 * b.setWidth 128
  ⟨p.extractLsb' 0 64, p.extractLsb' 64 64⟩

/-- The multiplier of an instance, the "select-fastest-available dispatcher" after selection (R81, R82).
Whatever the strategy, `val(mul64(a, b)) = a · b` (R85). -/
def mul64 : MulStrategy → Word → Word → Value
  | .primitive => mul64Primitive
  | .wide => mul64Wide
  | .limb => mul64Limb

/-- MUL64: `respond(mul64(a, b))` (R80). -/
def execMul64 (a b : Word) (s : State) : Host.Outcome State Fault Refusal :=
  .next (respond (mul64 Config.mulStrategy a b) s)

end Sys2Proof.Machine
end

