-- ==== Sys2Proof/Machine/Mul128.lean ====
section
/-! DEFINITION. MULW and MUL, built from MULT64 and ADD128 (45_mul128.md R130 to R133). Both take the
strategy of the multiplier, which no response depends on (R135). -/

namespace Sys2Proof.Machine

/-- The product of a value and a word (R131): `add128(P, (0, Q.lo))`, the case `B = (W, 0)` of R133. -/
def mulWord (st : MulStrategy) (a : Value) (w : Word) : Value :=
  let p := mul64 st a.lo w
  let q := mul64 st a.hi w
  add128 p (highValue q.lo)

/-- The product of two values (R132): `add128(add128(P, (0, Q.lo)), (0, S.lo))`, the three terms that are
left of the product modulo 2¹²⁸ (R133). The product of the high words is never computed. -/
def mul128 (st : MulStrategy) (a b : Value) : Value :=
  let p := mul64 st a.lo b.lo
  let q := mul64 st a.lo b.hi
  let s := mul64 st a.hi b.lo
  add128 (add128 p (highValue q.lo)) (highValue s.lo)

/-- MULW (R131). -/
def execMulw (a : Value) (w : Word) (s : State) : Host.Outcome State Fault Refusal :=
  .next (respond (mulWord Config.mulStrategy a w) s)

/-- MUL (R132). -/
def execMul (a b : Value) (s : State) : Host.Outcome State Fault Refusal :=
  .next (respond (mul128 Config.mulStrategy a b) s)

end Sys2Proof.Machine
end

