-- ==== Sys2Proof/Machine/Shift.lean ====
section
/-! DEFINITION. SHIFT128, SHL and SHR (41_shift.md R90 to R94). -/

namespace Sys2Proof.Machine

/-- `shl_small(v, m)` of R93, for `0 ≤ m ≤ 63`. The test `m = 0` keeps `64 − m` at 63 or less. -/
def shlSmall (v : Value) (m : Nat) (h : m ≤ 63) : Value :=
  if h0 : m = 0 then v
  else ⟨shl64 v.lo m h, or64 (shl64 v.hi m h) (shr64 v.lo (64 - m) (by omega))⟩

/-- `shr_small(v, m)` of R93, the mirror. -/
def shrSmall (v : Value) (m : Nat) (h : m ≤ 63) : Value :=
  if h0 : m = 0 then v
  else ⟨or64 (shr64 v.lo m h) (shl64 v.hi (64 - m) (by omega)), shr64 v.hi m h⟩

/-- The value SHL gives (R91): identity, ZERO, `hi := lo, lo := 0` and the rest, or the
cross-boundary step. -/
def shl128 (a : Value) (n : Nat) : Value :=
  if n = 0 then a
  else if h128 : n ≥ 128 then ⟨0#64, 0#64⟩
  else if h64 : n ≥ 64 then shlSmall ⟨0#64, a.lo⟩ (n - 64) (by omega)
  else shlSmall a n (by omega)

/-- The value SHR gives (R92): zeros enter at the top, and `lo := hi, hi := 0` from 64 on. -/
def shr128 (a : Value) (n : Nat) : Value :=
  if n = 0 then a
  else if h128 : n ≥ 128 then ⟨0#64, 0#64⟩
  else if h64 : n ≥ 64 then shrSmall ⟨a.hi, 0#64⟩ (n - 64) (by omega)
  else shrSmall a n (by omega)

/-- SHL (R91). -/
def execShl (a : Value) (n : Word) (s : State) : Host.Outcome State Fault Refusal :=
  .next (respond (shl128 a (shiftAmount n)) s)

/-- SHR (R92). -/
def execShr (a : Value) (n : Word) (s : State) : Host.Outcome State Fault Refusal :=
  .next (respond (shr128 a (shiftAmount n)) s)

end Sys2Proof.Machine
end

