-- ==== Sys2Proof/Machine/Dispatch.lean ====
section
/-! DEFINITION. The dispatch of a decoded command to its meaning, one arm per row of the opcode map
(30_encoding.md R60, R61). -/

namespace Sys2Proof.Machine

def exec (i : Instr) (s : State) : Host.Outcome State Fault Refusal :=
  match i with
  | .mul64 a b => Sys2Proof.Machine.execMul64 a b s
  | .shl a n => Sys2Proof.Machine.execShl a n s
  | .shr a n => Sys2Proof.Machine.execShr a n s
  | .not a => Sys2Proof.Machine.execNot a s
  | .and a b => Sys2Proof.Machine.execAnd a b s
  | .or a b => Sys2Proof.Machine.execOr a b s
  | .xor a b => Sys2Proof.Machine.execXor a b s
  | .cmp a b => Sys2Proof.Machine.execCmp a b s
  | .add a b => Sys2Proof.Machine.execAdd a b s
  | .addw a w => Sys2Proof.Machine.execAddw a w s
  | .mulw a w => Sys2Proof.Machine.execMulw a w s
  | .mul a b => Sys2Proof.Machine.execMul a b s
  | .zero => Sys2Proof.Machine.execZero s
  | .one => Sys2Proof.Machine.execOne s
  | .max => Sys2Proof.Machine.execMax s
  | .fromw w => Sys2Proof.Machine.execFromw w s
  | .fromp a => Sys2Proof.Machine.execFromp a s

end Sys2Proof.Machine
end

