-- ==== Sys2Proof/Machine/Step.lean ====
section
/-! DEFINITION. One step: the block takes the host's next event (20_memory.md R47). A command is decoded
and executed whole (10_state.md R35), a reserved opcode is reported (60_exceptions.md R152), reset is
applied (70_reset_and_hazards.md R170), and with nothing on the port `RSP` holds (R163, R173). -/

namespace Sys2Proof.Machine

/-- The block executes one command, sampled whole at the transfer (R174). -/
def execCommand (c : Command) (s : State) : Host.Outcome State Fault Refusal :=
  match decodeCommand c with
  | .ok i => exec i s
  | .error (.reservedOpcode _) => .next (reportIll s)

/-- One architectural step. -/
def step (s : State) : Host.Outcome State Fault Refusal :=
  match s.inputs with
  | [] => .next (idle s)
  | .reset :: rest => .next (applyReset (withInputs rest s))
  | .command c :: rest => execCommand c (withInputs rest s)

/-- The host puts one command of spec/opcode_table.json on the port, before anything else it was about
to do, so that the very next step executes it (log 3, log 4). -/
def State.withFetchWord (s : State) (nbits w : Nat) : State := present (tableCommand nbits w) s

end Sys2Proof.Machine
end

