-- ==== Sys2Proof/Machine/Assembler.lean ====
section
/-! DEFINITION. The assembler (30_encoding.md R65, R66) and the pseudo-instructions (R67), on abstract
lines; Text.lean reads a line from its characters. -/

namespace Sys2Proof

/-- The pseudo-instruction of a name, if it is one (R67). -/
def pseudoNamed (name : String) : Option Pseudo :=
  if name = "MOV" then some .mov
  else if name = "EQ" then some .eq
  else if name = "LT" then some .lt
  else if name = "GT" then some .gt
  else if name = "NE" then some .ne
  else if name = "LE" then some .le
  else if name = "GE" then some .ge
  else none

/-- The one command a pseudo-instruction expands to: `MOV v` is `FROMP v`, the six comparisons are
`CMP x, y` (R67). -/
def Pseudo.mnemonic : Pseudo → String
  | .mov => "FROMP"
  | .eq | .lt | .gt | .ne | .le | .ge => "CMP"

/-- What the host reads from `RSP` after the command of a pseudo-instruction (R67); nothing for MOV. -/
def Pseudo.reading : Pseudo → Machine.Rsp → Option Bool
  | .mov, _ => none
  | .eq, p => some p.eq
  | .lt, p => some p.lt
  | .gt, p => some p.gt
  | .ne, p => some (p.lt || p.gt)
  | .le, p => some (p.lt || p.eq)
  | .ge, p => some (p.gt || p.eq)

/-- The mnemonic of R60 behind a written mnemonic, pseudo-instructions expanded (R67). -/
def expandMnemonic (name : String) : String :=
  match pseudoNamed name with
  | some p => p.mnemonic
  | none => name

/-- A `<word>` operand (R65). -/
def Operand.toWord : Operand → Option Word
  | .word n => if inRange n then some (BitVec.ofNat 64 n) else none
  | .pair _ _ | .zero | .one | .max => none

/-- A `<value>` operand: a pair, a name, or "a bare `<word>` `w` standing for `(w, 0)`" (R65). -/
def Operand.toValue : Operand → Option Value
  | .word n => if inRange n then some ⟨BitVec.ofNat 64 n, 0#64⟩ else none
  | .pair lo hi =>
    if inRange lo && inRange hi then some ⟨BitVec.ofNat 64 lo, BitVec.ofNat 64 hi⟩ else none
  | .zero => some Value.zero
  | .one => some Value.one
  | .max => some Value.max

/-- The operands A and B that a form's written operands stand for; "the assembler writes every word
that the form does not use as zero" (R65). -/
def operandWords : Form → List Operand → Option (Value × Value)
  | .none, [] => some (⟨0#64, 0#64⟩, ⟨0#64, 0#64⟩)
  | .word, [x] => x.toWord.map fun w => (⟨w, 0#64⟩, ⟨0#64, 0#64⟩)
  | .value, [x] => x.toValue.map fun v => (v, ⟨0#64, 0#64⟩)
  | .wordWord, [x, y] =>
    x.toWord.bind fun v => y.toWord.map fun w => (⟨v, 0#64⟩, ⟨w, 0#64⟩)
  | .valueWord, [x, y] => x.toValue.bind fun v => y.toWord.map fun w => (v, ⟨w, 0#64⟩)
  | .valueValue, [x, y] => x.toValue.bind fun v => y.toValue.map fun w => (v, w)
  | _, _ => none

/-- Encoding of an assembled line, "`cmd = {op, b_hi, b_lo, a_hi, a_lo}` by rule R56 with `op` from rule
R60" (R66). None for a line the syntax of R65 does not have. -/
def assemble (l : Line) : Option Command :=
  (rowNamed (expandMnemonic l.mnemonic)).bind fun row =>
    (operandWords row.form l.operands).map fun ab => ⟨row.op, ab.1.lo, ab.1.hi, ab.2.lo, ab.2.hi⟩

end Sys2Proof
end

