-- ==== Sys2Proof/Machine/Ports.lean ====
section
/-! DEFINITION. The block at its ports (10_state.md R32), one tick of `clk` at a time, for any LATENCY:
the handshake, the command in flight, `rsp_valid`, and reset (70_reset_and_hazards.md R170, R173 to
R175). R30 says that what is in flight is not architectural, so it is not in `State`; this level is
stated to refine `step`. The `rst` pin itself, under each RESET_KIND, is in Reset.lean. What the spec
leaves open of a tick is in logs 9 to 12. -/

namespace Sys2Proof.Machine

/-- The input ports of R32 in one tick: `rst` says that reset is applied, `cmd` carries
`cmd_op` and the four operand words. -/
structure PortIn where
  rst : Bool
  cmdValid : Bool
  cmd : Command
  deriving DecidableEq, Repr

/-- The output ports of R32. -/
structure PortOut where
  cmdReady : Bool
  rspValid : Bool
  rspIll : Bool
  rspGt : Bool
  rspEq : Bool
  rspLt : Bool
  rspRLo : Word
  rspRHi : Word
  deriving DecidableEq, Repr

/-- A command in flight: its opcode and words as sampled at the transfer (R174), and the ticks that pass
before the one in which its response arrives. -/
structure InFlight where
  cmd : Command
  left : Nat
  deriving DecidableEq, Repr

/-- The block between two ticks: `RSP`, and at most one command in flight (R175). -/
structure Block where
  rsp : Rsp
  busy : Option InFlight
  deriving DecidableEq, Repr

/-- Reset: `RSP` all zero, and "a command in flight when reset arrives is discarded" (R170). -/
def Block.reset : Block := { rsp := Rsp.reset, busy := none }

/-- The response register after a command, by the architectural step. -/
def responseTo (c : Command) (p : Rsp) : Rsp :=
  match step { rsp := p, inputs := [.command c] } with
  | .next t => t.rsp
  | .fault _ => p
  | .refused _ => p

/-- The outputs: "`cmd_ready` is 0 from a transfer until that command's response is in `RSP`, and
`rsp_valid` is 0 during the same interval" (R175); the other ports show `RSP` (R32). -/
def Block.out (b : Block) : PortOut where
  cmdReady := b.busy.isNone
  rspValid := b.rsp.valid && b.busy.isNone
  rspIll := b.rsp.ill
  rspGt := b.rsp.gt
  rspEq := b.rsp.eq
  rspLt := b.rsp.lt
  rspRLo := b.rsp.r.lo
  rspRHi := b.rsp.r.hi

/-- A command is transferred in a tick when `cmd_valid` and `cmd_ready` are both 1 (R32) and reset is not
applied (log 10). -/
def Block.transfers (b : Block) (i : PortIn) : Bool := i.cmdValid && b.out.cmdReady && !i.rst

/-- A transferred command with LATENCY `n`: at 0 its response is in `RSP` at once, at `n + 1` after
`n + 1` more ticks (log 9). -/
def Block.accept (c : Command) (latency : Nat) (b : Block) : Block :=
  match latency with
  | 0 => { rsp := responseTo c b.rsp, busy := none }
  | n + 1 => { rsp := b.rsp, busy := some { cmd := c, left := n } }

/-- The command in flight comes one tick closer to its response. -/
def Block.advance (f : InFlight) (b : Block) : Block :=
  match f.left with
  | 0 => { rsp := responseTo f.cmd b.rsp, busy := none }
  | n + 1 => { rsp := b.rsp, busy := some { cmd := f.cmd, left := n } }

/-- One tick of `clk`, for a LATENCY per opcode. Outside transfers, responses and reset, `RSP` holds
(R173), and what the command ports carry has no effect (R174). -/
def Block.tick (latency : Opcode → Nat) (i : PortIn) (b : Block) : Block :=
  if i.rst then Block.reset
  else
    match b.busy with
    | some f => b.advance f
    | none => if i.cmdValid then b.accept i.cmd (latency i.cmd.op) else b

/-- The block after a sequence of ticks. -/
def Block.ticks (latency : Opcode → Nat) : List PortIn → Block → Block
  | [], b => b
  | i :: is, b => Block.ticks latency is (b.tick latency i)

/-- What the host did, as the architectural step sees it: the commands transferred and the resets
applied during a sequence of ticks. -/
def Block.events (latency : Opcode → Nat) : List PortIn → Block → List Input
  | [], _ => []
  | i :: is, b =>
    let rest := Block.events latency is (b.tick latency i)
    if i.rst then .reset :: rest
    else if b.transfers i then .command i.cmd :: rest
    else rest

/-- `RSP` once the command in flight, if there is one, has had its response. -/
def Block.settled (b : Block) : Rsp :=
  match b.busy with
  | some f => responseTo f.cmd b.rsp
  | none => b.rsp

/-- The modelled instance: its LATENCY is the open parameter of its strategy (R9, R180). -/
def Block.clock (i : PortIn) (b : Block) : Block :=
  b.tick (Config.latency Config.mulStrategy) i

end Sys2Proof.Machine
end

