-- ==== Sys2Proof/Machine/Reset.lean ====
section
/-! DEFINITION. The `rst` pin under each `RESET_KIND` (00_scope.md R9, 70_reset_and_hazards.md R170): from
the levels of the pin to the ticks in which reset is applied, which is what Ports.lean reads. The kind is
an argument throughout. How each of its parts shows at the grain of a tick is in log 16. -/

namespace Sys2Proof.Machine

/-- The input pins in one tick. `rst` is the raw level. Of an asynchronous pin it is the active level if the
pin was active at any moment of the tick. -/
structure PinIn where
  rst : Bool
  cmdValid : Bool
  cmd : Command
  deriving DecidableEq, Repr

/-- For how many ticks the pin has been active, this one included, after `held` active ticks (R170: polarity). -/
def resetHeld (kind : ResetKind) (held : Nat) (level : Bool) : Nat :=
  if level = kind.activeLevel then held + 1 else 0

/-- Whether reset is applied in a tick, once the pin has been active for `held` ticks (R170: minimum length). -/
def resetApplies (kind : ResetKind) (held : Nat) : Bool :=
  decide (0 < held) && (decide (kind.minTicks ≤ held) || kind.shortCounts)

/-- What the block is given, tick by tick, when the pin had been active for `held` ticks before. -/
def samplePins (kind : ResetKind) (held : Nat) : List PinIn → List PortIn
  | [] => []
  | pin :: pins =>
    let now := resetHeld kind held pin.rst
    { rst := resetApplies kind now, cmdValid := pin.cmdValid, cmd := pin.cmd } ::
      samplePins kind now pins

/-- The output ports during a tick. A synchronous reset shows once the tick has passed. An asynchronous one
shows in the tick itself (R170). -/
def Block.outDuring (timing : ResetTiming) (i : PortIn) (b : Block) : PortOut :=
  match timing with
  | .synchronous => b.out
  | .asynchronous => if i.rst then Block.reset.out else b.out

/-- The modelled instance over a sequence of ticks, from its pins: LATENCY and RESET_KIND are the open
parameters of Config (R9). -/
def Block.ticksOfPins (pins : List PinIn) (b : Block) : Block :=
  Block.ticks (Config.latency Config.mulStrategy) (samplePins Config.resetKind 0 pins) b

end Sys2Proof.Machine
end

