-- ==== Sys2Proof/Machine/Script.lean ====
section
/-! DEFINITION. The host script (30_encoding.md R68): the programs of the spec are programs of the host
that issue commands to the block. "The state of a script is `RSP` plus the host's variables". Nothing
here is state or behaviour of the block; a script reaches the block only through `step`. What R68
leaves open is in log 15. -/

namespace Sys2Proof.Machine

/-- An operand of a script's command (R68): what R65 allows, `$name`, `$name.lo` or `$name.hi`. DESIGN CHOICE
(log 19, safe): a variable stands for a whole operand, never for a component of a written pair. -/
inductive Arg where
  | lit (x : Operand)
  | var (name : String)
  | lo (name : String)
  | hi (name : String)
  deriving DecidableEq, Repr

/-- The four flags of `RSP` a script may branch on (R68). -/
inductive Flag where
  | lt | eq | gt | ill
  deriving DecidableEq, Repr

/-- The statements of R68: a command with an optional `-> $name`, a raw command (95_test_vectors.md P5),
and the four statements the host executes by itself. -/
inductive Stmt where
  | command (mnemonic : String) (args : List Arg) (dest : Option String)
  | raw (c : Command) (dest : Option String)
  /-- `IF <flag> GOTO label`, or `IF NOT <flag> GOTO label` when `negated`. -/
  | ifGoto (negated : Bool) (flag : Flag) (label : String)
  | goto (label : String)
  | halt
  deriving DecidableEq, Repr

/-- A line of a script: "`label:` before a line" (R68). -/
structure ScriptLine where
  label : Option String
  stmt : Stmt
  deriving DecidableEq, Repr

/-- The host with its block: the block's state, the host's variables (each name at most once), the line
the script is at, and whether it has ended. -/
structure ScriptState where
  block : State
  vars : List (String × Value)
  line : Nat
  halted : Bool
  deriving DecidableEq, Repr

/-- Why a script cannot go on. All are stops of the host's script; the block itself never stops. Safe:
a script that stops proves nothing. -/
inductive ScriptStop where
  /-- "A variable that has not been assigned holds no value and must not be used" (R68). -/
  | unassigned (name : String)
  /-- The command is no line of R65. -/
  | illFormedLine
  /-- No line carries the label. -/
  | noLabel (name : String)
  /-- The block did not answer; `step` never does this (R150). -/
  | blockStopped
  deriving DecidableEq, Repr

/-- A script starts in the reset state of the block with "no host variable assigned"
(95_test_vectors.md part 3). -/
def ScriptState.start : ScriptState := { block := State.reset, vars := [], line := 0, halted := false }

/-- The value a variable holds, if it has been assigned. -/
def ScriptState.get (s : ScriptState) (name : String) : Except ScriptStop Value :=
  match s.vars.find? (fun p => p.1 == name) with
  | some p => .ok p.2
  | none => .error (.unassigned name)

/-- Assigning a variable replaces what it held. -/
def assignVar (name : String) (v : Value) (vars : List (String × Value)) : List (String × Value) :=
  (name, v) :: vars.filter (fun p => p.1 != name)

/-- An operand with its variables replaced by what they hold (R68). -/
def Arg.resolve (s : ScriptState) : Arg → Except ScriptStop Operand
  | .lit x => .ok x
  | .var name => (s.get name).map fun v => .pair v.lo.toNat v.hi.toNat
  | .lo name => (s.get name).map fun v => .word v.lo.toNat
  | .hi name => (s.get name).map fun v => .word v.hi.toNat

/-- The operands of a command, in order. -/
def resolveArgs (s : ScriptState) : List Arg → Except ScriptStop (List Operand)
  | [] => .ok []
  | a :: as => (a.resolve s).bind fun x => (resolveArgs s as).map fun xs => x :: xs

/-- The flag a script reads from the current `RSP` (R68). -/
def Flag.read : Flag → Rsp → Bool
  | .lt, p => p.lt
  | .eq, p => p.eq
  | .gt, p => p.gt
  | .ill, p => p.ill

/-- The first line from `start` on that carries a label. -/
def findLabel (name : String) : List ScriptLine → Nat → Except ScriptStop Nat
  | [], _ => .error (.noLabel name)
  | l :: ls, start => if l.label = some name then .ok start else findLabel name ls (start + 1)

/-- The host transfers one command and goes to the next line; `-> $name` "copies `RSP.r` of that
command's response into its variable" (R68). -/
def ScriptState.issue (c : Command) (dest : Option String) (s : ScriptState) :
    Except ScriptStop ScriptState :=
  match step (present c s.block) with
  | .next t =>
    .ok { s with
      block := t, line := s.line + 1
      vars := match dest with
        | some name => assignVar name t.rsp.r s.vars
        | none => s.vars }
  | .fault _ => .error .blockStopped
  | .refused _ => .error .blockStopped

/-- The script goes to a label. -/
def ScriptState.jump (program : List ScriptLine) (label : String) (s : ScriptState) :
    Except ScriptStop ScriptState :=
  (findLabel label program 0).map fun n => { s with line := n }

/-- One statement (R68). "These four statements are executed by the host; they are not commands ... and
do not change `RSP`". -/
def Stmt.run (program : List ScriptLine) (s : ScriptState) : Stmt → Except ScriptStop ScriptState
  | .command mnemonic args dest =>
    (resolveArgs s args).bind fun ops =>
      match assemble ⟨mnemonic, ops⟩ with
      | some c => s.issue c dest
      | none => .error .illFormedLine
  | .raw c dest => s.issue c dest
  | .ifGoto negated flag label =>
    if flag.read s.block.rsp != negated then s.jump program label
    else .ok { s with line := s.line + 1 }
  | .goto label => s.jump program label
  | .halt => .ok { s with halted := true }

/-- One step of a script. A halted script stays as it is; running past the last line ends the run, since
the host then transfers no more (70_reset_and_hazards.md R181; log 15). -/
def scriptStep (program : List ScriptLine) (s : ScriptState) : Except ScriptStop ScriptState :=
  if s.halted then .ok s
  else
    match program[s.line]? with
    | some l => l.stmt.run program s
    | none => .ok { s with halted := true }

end Sys2Proof.Machine
end

