-- ==== Sys2Proof/Machine/Response.lean ====
section
/-! DEFINITION. The response record (30_encoding.md R58): `RSP` without its valid bit as 132 bits, bit 0
least significant. The valid bit travels beside it on `rsp_valid`. -/

namespace Sys2Proof.Machine

/-- The response record `rsp[131:0]` (R58). -/
abbrev RspRecord := BitVec 132

/-- `{ill, gt, eq, lt, r_hi, r_lo}` (R58). -/
def Rsp.record (p : Rsp) : RspRecord :=
  BitVec.ofBool p.ill ++ BitVec.ofBool p.gt ++ BitVec.ofBool p.eq ++ BitVec.ofBool p.lt
    ++ p.r.hi ++ p.r.lo

/-- The fields of a response record at the bit positions of R58, with the valid bit given beside. -/
def Rsp.ofRecord (valid : Bool) (q : RspRecord) : Rsp where
  valid := valid
  ill := q.getLsbD 131
  gt := q.getLsbD 130
  eq := q.getLsbD 129
  lt := q.getLsbD 128
  r := ⟨q.extractLsb' 0 64, q.extractLsb' 64 64⟩

end Sys2Proof.Machine
end

