-- ==== Sys2Proof/Machine/Text.lean ====
section
/-! DEFINITION. The texts of the spec: a command as 66 hexadecimal digits (30_encoding.md R56), a
response as 33 (R58), and an assembler line read from its characters (R65). Texts are lists of
characters. What R65 leaves open of the layout of a line is in log 14. -/

namespace Sys2Proof

/-- The hexadecimal digits as the spec writes them. -/
def hexChars : List Char :=
  ['0', '1', '2', '3', '4', '5', '6', '7', '8', '9', 'A', 'B', 'C', 'D', 'E', 'F']

/-- The last hexadecimal digit of a number. -/
def hexDigit (v : Nat) : Char := hexChars.getD (v % 16) '0'

/-- The last `digits` hexadecimal digits of a number, most significant first. -/
def hexText : (digits : Nat) → (v : Nat) → List Char
  | 0, _ => []
  | d + 1, v => hexText d (v / 16) ++ [hexDigit v]

/-- The value of a hexadecimal digit, in either case (log 14). -/
def hexValue (c : Char) : Option Nat :=
  let n := c.toNat
  if 48 ≤ n ∧ n ≤ 57 then some (n - 48)
  else if 65 ≤ n ∧ n ≤ 70 then some (n - 55)
  else if 97 ≤ n ∧ n ≤ 102 then some (n - 87)
  else none

/-- The value of a decimal digit. -/
def decValue (c : Char) : Option Nat :=
  let n := c.toNat
  if 48 ≤ n ∧ n ≤ 57 then some (n - 48) else none

/-- The number a list of digits stands for, most significant first, on top of `acc`. -/
def readDigits (base : Nat) (digit : Char → Option Nat) (acc : Nat) : List Char → Option Nat
  | [] => some acc
  | c :: cs =>
    match digit c with
    | some d => readDigits base digit (acc * base + d) cs
    | none => none

/-- "As text a command is written as 66 hexadecimal digits, most significant first" (R56). -/
def Command.text (c : Command) : List Char := hexText 66 c.toRecord.toNat

/-- A command read from its text, if it has 66 hexadecimal digits (R56). -/
def Command.ofText (t : List Char) : Option Command :=
  if t.length = 66 then
    (readDigits 16 hexValue 0 t).map fun n => Command.ofRecord (BitVec.ofNat 264 n)
  else none

/-- "As text a response is 33 hexadecimal digits: one digit `{ill, gt, eq, lt}`, then 16 of `r_hi`, then
16 of `r_lo`" (R58). -/
def Machine.Rsp.text (p : Machine.Rsp) : List Char := hexText 33 p.record.toNat

/-- The tokens of an assembler line. -/
inductive Token where
  | name (s : String)
  | num (n : Nat)
  | lparen
  | rparen
  | comma
  deriving DecidableEq, Repr

/-- A run of other characters: "a decimal number or a hexadecimal number `0x...`" (R65), or a name. -/
def wordToken : List Char → Token
  | '0' :: 'x' :: c :: cs =>
    match readDigits 16 hexValue 0 (c :: cs) with
    | some n => .num n
    | none => .name (String.ofList ('0' :: 'x' :: c :: cs))
  | cs =>
    match readDigits 10 decValue 0 cs with
    | some n => .num n
    | none => .name (String.ofList cs)

/-- The token of the characters gathered so far (last one first), if there are any. -/
def pendingToken : List Char → List Token
  | [] => []
  | c :: cs => [wordToken (c :: cs).reverse]

/-- The tokens of a line; "`;` starts a comment" (R65). -/
def tokens (gathered : List Char) : List Char → List Token
  | [] => pendingToken gathered
  | c :: cs =>
    if c = ';' then pendingToken gathered
    else if c = ' ' ∨ c = '\t' then pendingToken gathered ++ tokens [] cs
    else if c = '(' then pendingToken gathered ++ .lparen :: tokens [] cs
    else if c = ')' then pendingToken gathered ++ .rparen :: tokens [] cs
    else if c = ',' then pendingToken gathered ++ .comma :: tokens [] cs
    else tokens (c :: gathered) cs

/-- One operand and what follows it (R65). -/
def readOperand : List Token → Option (Operand × List Token)
  | .lparen :: .num lo :: .comma :: .num hi :: .rparen :: rest => some (.pair lo hi, rest)
  | .num n :: rest => some (.word n, rest)
  | .name s :: rest =>
    if s = "ZERO" then some (.zero, rest)
    else if s = "ONE" then some (.one, rest)
    else if s = "MAX" then some (.max, rest)
    else none
  | _ => none

/-- No operand, one, or two with a comma between (R65). -/
def readOperands (ts : List Token) : Option (List Operand) :=
  if ts = [] then some []
  else
    match readOperand ts with
    | some (x, []) => some [x]
    | some (x, .comma :: ts₂) =>
      match readOperand ts₂ with
      | some (y, []) => some [x, y]
      | _ => none
    | _ => none

/-- A line read from its text: "One command per line", the mnemonic first (R65). -/
def readLine (text : List Char) : Option Line :=
  match tokens [] text with
  | .name m :: ts => (readOperands ts).map fun ops => ⟨m, ops⟩
  | _ => none

/-- The whole assembler: from the text of a line to its command (R65, R66). -/
def assembleText (text : List Char) : Option Command := (readLine text).bind assemble

end Sys2Proof
end

