-- ==== Sys2Proof/Safety.lean ====
section
/-! DEFINITION. What claims about U128 CORE are stated in: the invariant of 10_state.md R34, when a
response may be read (R33), what it is for a step to go on, and what a written operand stands for. -/

namespace Sys2Proof

/-- What a written `<value>` stands for: a pair with the low word first, one of the names of 10_state.md R23,
or "a bare `<word>` `w` standing for `(w, 0)`" (30_encoding.md R65). -/
inductive Operand.StandsFor : Operand → Value → Prop
  | pair (v : Value) : StandsFor (.pair v.lo.toNat v.hi.toNat) v
  | word (w : Word) : StandsFor (.word w.toNat) ⟨w, 0#64⟩
  | zero : StandsFor .zero ⟨0#64, 0#64⟩
  | one : StandsFor .one ⟨1#64, 0#64⟩
  | max : StandsFor .max ⟨0xFFFFFFFFFFFFFFFF#64, 0xFFFFFFFFFFFFFFFF#64⟩

end Sys2Proof

namespace Sys2Proof.Machine

/-- R34: "at most one of `lt`, `eq`, `gt` is 1; if `ill = 1` then `lt = eq = gt = 0` and `r = (0,0)`; if
`valid = 0` then all fields are 0". -/
def Rsp.Inv (p : Rsp) : Prop :=
  (p.lt.toNat + p.eq.toNat + p.gt.toNat ≤ 1) ∧
  (p.ill = true → p.lt = false ∧ p.eq = false ∧ p.gt = false ∧ p.r = ⟨0#64, 0#64⟩) ∧
  (p.valid = false → p = Rsp.reset)

/-- The invariant of the machine: the host's pending events are unconstrained. -/
def State.Inv (s : State) : Prop := s.rsp.Inv

/-- "A host must treat `RSP.r` and the flags as meaningful only when `RSP.valid = 1`" (R33). -/
def Rsp.Meaningful (p : Rsp) : Prop := p.valid = true

/-- The response that carries a result and no flag, as `respond(v)` leaves it (00_scope.md R15). -/
def Rsp.answer (v : Value) : Rsp :=
  { valid := true, ill := false, gt := false, eq := false, lt := false, r := v }

/-- The response to a reserved opcode (60_exceptions.md R152). -/
def Rsp.illegal : Rsp :=
  { valid := true, ill := true, gt := false, eq := false, lt := false, r := ⟨0#64, 0#64⟩ }

/-- The step goes on: neither a fault nor a refusal (60_exceptions.md R150, R152). -/
def GoesOn (s : State) : Prop := ∃ t, step s = .next t

end Sys2Proof.Machine
end

