-- ==== Sys2Proof/Certificates/Slice0/Obligations.lean ====
section
/-! DEFINITION. The statements about U128 CORE, from the numbered rules of spec/. A result is stated as the
whole next state, so that each such statement is also the instruction's completion and its frame: it
writes `RSP` and nothing else. -/

open Sys2Proof Sys2Proof.Machine

/-! Where a statement gives an instruction's result, its first clause says which commands are that
instruction, by the opcode and by the operand words that its form reads; every other word is ignored. -/

/-! ## Reset and the step -/

/-- 10_state.md R33: after reset every field of `RSP` is 0. -/
def Obligations.ResetLeavesEveryFieldZero : Prop :=
  State.reset.rsp.valid = false ∧ State.reset.rsp.ill = false ∧ State.reset.rsp.gt = false ∧
  State.reset.rsp.eq = false ∧ State.reset.rsp.lt = false ∧
  State.reset.rsp.r.lo = 0#64 ∧ State.reset.rsp.r.hi = 0#64

/-- Reset, applied at any time, puts `RSP` into the all-zero state, and a command in flight is discarded, so
it produces no response in any later tick without a transfer (70_reset_and_hazards.md, 1). That reset is an
event of the step is the model's inference (log 8); that reset wins over a command offered in the same tick
is the model's choice (log 10). -/
def Obligations.ResetAppliesAtAnyTime : Prop :=
  (∀ (q : Rsp) (rest : List Input),
    step ⟨q, .reset :: rest⟩ = .next
      ⟨{ valid := false, ill := false, gt := false, eq := false, lt := false, r := ⟨0#64, 0#64⟩ },
        rest⟩) ∧
  (∀ (latency : Opcode → Nat) (i : PortIn) (b : Block) (later : List PortIn), i.rst = true →
    (∀ j ∈ later, j.cmdValid = false) →
    Block.ticks latency (i :: later) b =
      { rsp := { valid := false, ill := false, gt := false, eq := false, lt := false,
                 r := ⟨0#64, 0#64⟩ },
        busy := none })

/-- Between commands `RSP` holds: it changes only when a command completes or reset is applied
(70_reset_and_hazards.md, 1, an inference the spec marks as its own; that the step idles is the model's
inference, log 2). At the ports a command completes in the tick in which the last of its latency has
passed, which is the model's choice (log 9). -/
def Obligations.RspHoldsBetweenCommands : Prop :=
  (∀ q : Rsp, step ⟨q, []⟩ = .next ⟨q, []⟩) ∧
  (∀ (latency : Opcode → Nat) (i : PortIn) (b : Block), (b.tick latency i).rsp ≠ b.rsp →
    i.rst = true ∨ (∃ f, b.busy = some f ∧ f.left = 0) ∨
    (b.transfers i = true ∧ latency i.cmd.op = 0))

/-- The invariant of 10_state.md R34 holds right after reset. -/
def Obligations.InvariantHoldsAtReset : Prop := State.reset.Inv

/-- 10_state.md R34 (an inference the spec marks as its own) as an invariant: from every state that meets
it, reached or not, every step gives a state that meets it. -/
def Obligations.StepKeepsInvariant : Prop :=
  ∀ s t : State, s.Inv → step s = .next t → t.Inv

/-- A step runs the decoded instruction: when the record on the port decodes to `i`, the step is `exec i`
with that command taken off the host's list. The second half says the same of a word of
spec/opcode_table.json put on the port (the model's choice of numbering, log 3 and log 4). -/
def Obligations.StepRunsDecodedInstruction : Prop :=
  (∀ (q : Rsp) (c : Command) (rest : List Input) (i : Instr), decode c.toRecord = .ok i →
    step ⟨q, .command c :: rest⟩ = exec i ⟨q, rest⟩) ∧
  (∀ (s : State) (nbits w : Nat) (i : Instr), decodeTableWord nbits w = some i →
    step (s.withFetchWord nbits w) = exec i s)

/-- None of the defined operations can raise, trap, fault, hang, block or report anything, for any operands:
each ends in a response with `ill = 0` (60_exceptions.md, 1). No step stops at all: that a reserved opcode
has the defined response is the model's choice of the two that the spec allows (log 5); that a step with no
event leaves the state as it is (log 2) and that reset is an event of the step (log 8) are the model's
inferences. -/
def Obligations.NothingEverStops : Prop :=
  (∀ (i : Instr) (s : State), ∃ t, exec i s = .next t ∧ t.rsp.ill = false ∧ t.rsp.valid = true ∧
    t.inputs = s.inputs) ∧
  (∀ s : State, GoesOn s)

/-- 10_state.md R35: every command has exactly one response, which depends on the command alone: not on
the old `RSP`, not on earlier or later commands, and not on the multiplier strategy, which enters the
step only through `mul64`. -/
def Obligations.ResponseDependsOnCommandAlone : Prop :=
  (∀ c : Command, ∃ p : Rsp, ∀ (q : Rsp) (rest : List Input),
    step ⟨q, .command c :: rest⟩ = .next ⟨p, rest⟩) ∧
  (∀ (st : MulStrategy) (a b : Word), mul64 st a b = mul64 Config.mulStrategy a b)

/-- 20_memory.md R47: commands run one at a time in transfer order, and the response visible after the
k-th transfer is the step's response to the k-th command, whatever came before. -/
def Obligations.KthResponseIsOfKthCommand : Prop :=
  ∀ (before : List Command) (c : Command) (q : Rsp) (rest : List Input), ∃ p : Rsp,
    step ⟨Rsp.reset, [.command c]⟩ = .next ⟨p, []⟩ ∧
    Host.Core.run Sys2Proof.core (before.length + 1)
      (⟨q, before.map Input.command ++ Input.command c :: rest⟩ : State) = .next (⟨p, rest⟩ : State)

/-- `lt`, `eq`, `gt` are the one-hot outcome of the comparison after CMP and 0 after every other command,
reserved opcodes included; `ill` is 1 after a reserved opcode and 0 after every defined one (10_state.md,
2, the table of R28); `valid` is 1 after any command (R25). No operation reads a flag: the response `p` is
chosen before the old `RSP`. That the three flags of CMP are the comparisons of the numbers, exactly one of
them 1, is an inference the spec marks as its own (43_compare.md, R112; R22, its 'Equivalently'). -/
def Obligations.FlagsAreWrittenAsTabled : Prop :=
  ∀ c : Command, ∃ p : Rsp,
    (∀ (q : Rsp) (rest : List Input), step ⟨q, .command c :: rest⟩ = .next ⟨p, rest⟩) ∧
    p.ill = reservedOpcode c.op ∧ p.valid = true ∧
    (c.op = 0x40#8 → p.lt = decide (c.a.val < c.b.val) ∧ p.eq = decide (c.a.val = c.b.val) ∧
      p.gt = decide (c.b.val < c.a.val) ∧ p.lt.toNat + p.eq.toNat + p.gt.toNat = 1) ∧
    (c.op ≠ 0x40#8 → p.lt = false ∧ p.eq = false ∧ p.gt = false)

/-! ## Encoding -/

/-- The encoder and the decoder agree on every instruction, with every operand at every value, through the
264 bits of the record (30_encoding.md, 1 and 3). -/
def Obligations.DecodeEncodeRoundTrip : Prop := ∀ i : Instr, decode (encode i) = .ok i

/-- The other direction: a record that decodes is the encoding of its instruction up to the words its form
ignores, which the encoder writes as zero (30_encoding.md, 1, 4 and 5). -/
def Obligations.EncodeDecodeIsCanonical : Prop :=
  ∀ (r : CmdRecord) (i : Instr), decode r = .ok i →
    encode i = ((Command.ofRecord r).zeroIgnored i.form).toRecord

/-- 30_encoding.md R56: the fields of the command record at their bit positions, nothing dropped either
way, and its text of 66 hexadecimal digits: 2 of `op`, then 16 each of `b_hi`, `b_lo`, `a_hi`, `a_lo`. -/
def Obligations.CommandRecordLayout : Prop :=
  (∀ c : Command, c.toRecord.toNat = c.op.toNat * 2 ^ 256 + c.bHi.toNat * 2 ^ 192
    + c.bLo.toNat * 2 ^ 128 + c.aHi.toNat * 2 ^ 64 + c.aLo.toNat) ∧
  (∀ c : Command, Command.ofRecord c.toRecord = c) ∧
  (∀ r : CmdRecord, (Command.ofRecord r).toRecord = r) ∧
  (∀ c : Command, c.text.length = 66 ∧
    c.text = hexText 2 c.op.toNat ++ hexText 16 c.bHi.toNat ++ hexText 16 c.bLo.toNat
      ++ hexText 16 c.aHi.toNat ++ hexText 16 c.aLo.toNat ∧
    Command.ofText c.text = some c)

/-- 30_encoding.md R58: the fields of the response record at their bit positions, nothing dropped, the
valid bit beside it, and its text of 33 hexadecimal digits: one of `{ill, gt, eq, lt}`, 16 of `r_hi`, 16
of `r_lo`. -/
def Obligations.ResponseRecordLayout : Prop :=
  ∀ p : Rsp,
    p.record.toNat = p.ill.toNat * 2 ^ 131 + p.gt.toNat * 2 ^ 130 + p.eq.toNat * 2 ^ 129
      + p.lt.toNat * 2 ^ 128 + p.r.hi.toNat * 2 ^ 64 + p.r.lo.toNat ∧
    Rsp.ofRecord p.valid p.record = p ∧
    p.text.length = 33 ∧
    p.text = hexText 1 (8 * p.ill.toNat + 4 * p.gt.toNat + 2 * p.eq.toNat + p.lt.toNat)
      ++ hexText 16 p.r.hi.toNat ++ hexText 16 p.r.lo.toNat

/-- Decoding is a total function of the opcode alone: one of 17 distinct rows, or the reserved opcode by
name; no operand bit changes which (30_encoding.md, 3; R61 is an inference the spec marks as its own). -/
def Obligations.DecodingLooksAtTheOpcodeAlone : Prop :=
  opcodeTable.length = 17 ∧ (opcodeTable.map (·.op)).Nodup ∧
  ∀ op : Opcode,
    (∃ row ∈ opcodeTable, row.op = op ∧ ∀ c : Command, c.op = op → decodeCommand c = .ok (row.make c)) ∨
    (op ∉ opcodeTable.map (·.op) ∧
      ∀ c : Command, c.op = op → decodeCommand c = .error (.reservedOpcode op))

/-- 30_encoding.md R62 with 60_exceptions.md R152: the 239 opcodes of the listed ranges, and no others,
have no instruction; each is reported by `r = (0,0)`, `lt = eq = gt = 0`, `ill = 1`, `valid = 1`, whatever
the operands and the old `RSP`, and the block goes on to the host's next event; `ill` is not sticky, the
next command overwrites it. -/
def Obligations.ReservedOpcodesAreReported : Prop :=
  (∀ (c : Command) (q : Rsp) (rest : List Input), reservedOpcode c.op = true →
    decodeCommand c = .error (.reservedOpcode c.op) ∧
    step ⟨q, .command c :: rest⟩ = .next
      ⟨{ valid := true, ill := true, gt := false, eq := false, lt := false, r := ⟨0#64, 0#64⟩ }, rest⟩) ∧
  (∀ (c d : Command) (q : Rsp) (rest : List Input), reservedOpcode c.op = true → ∃ (s : State) (p : Rsp),
    step ⟨q, .command c :: .command d :: rest⟩ = .next s ∧ step s = .next ⟨p, rest⟩ ∧
    p.ill = reservedOpcode d.op) ∧
  (∀ c : Command, reservedOpcode c.op = false → ∃ i, decodeCommand c = .ok i) ∧
  ((List.range 256).filter fun n => reservedOpcode (BitVec.ofNat 8 n)).length = 239

/-- 30_encoding.md R63: two commands of one opcode that agree on the words its form reads have the same
response, with `ill = 0`; and the assembler writes the ignored words as zero. -/
def Obligations.IgnoredWordsHaveNoEffect : Prop :=
  (∀ row ∈ opcodeTable, ∀ c c' : Command, c.op = row.op →
    c'.zeroIgnored row.form = c.zeroIgnored row.form →
    ∃ p : Rsp, p.ill = false ∧ ∀ (q : Rsp) (rest : List Input),
      step ⟨q, .command c :: rest⟩ = .next ⟨p, rest⟩ ∧
      step ⟨q, .command c' :: rest⟩ = .next ⟨p, rest⟩) ∧
  (∀ (l : Line) (c : Command), assemble l = some c →
    ∃ row ∈ opcodeTable, row.op = c.op ∧ c.zeroIgnored row.form = c)

/-- Records written out from the spec's encoding decode to the instructions they stand for: one of each
family (95_test_vectors.md, commands of V-MUL64 18, V-SHL 3, V-LOGIC 4, V-CMP 4, S6, V-MULW 9, V-CONS 12). -/
def Obligations.WrittenRecordsDecode : Prop :=
  decode 0x100000000000000000FEDCBA987654321000000000000000000123456789ABCDEF#264 =
    .ok (.mul64 0x0123456789ABCDEF#64 0xFEDCBA9876543210#64) ∧
  decode 0x2000000000000000000000000000000004FEDCBA98765432100123456789ABCDEF#264 =
    .ok (.shl ⟨0x0123456789ABCDEF#64, 0xFEDCBA9876543210#64⟩ 4#64) ∧
  decode 0x30000000000000000000000000000000000123456789ABCDEFDEADBEEFCAFEF00D#264 =
    .ok (.not ⟨0xDEADBEEFCAFEF00D#64, 0x0123456789ABCDEF#64⟩) ∧
  decode 0x400000000000000001000000000000000000000000000000000000000000000005#264 =
    .ok (.cmp ⟨5#64, 0#64⟩ ⟨0#64, 1#64⟩) ∧
  decode 0x5000000000000000000000000000000001FFFFFFFFFFFFFFFFFFFFFFFFFFFFFFFF#264 =
    .ok (.add ⟨0xFFFFFFFFFFFFFFFF#64, 0xFFFFFFFFFFFFFFFF#64⟩ ⟨1#64, 0#64⟩) ∧
  decode 0x6000000000000000000000000000000010FEDCBA98765432100123456789ABCDEF#264 =
    .ok (.mulw ⟨0x0123456789ABCDEF#64, 0xFEDCBA9876543210#64⟩ 16#64) ∧
  decode 0x74000000000000000000000000000000000000000000000010000000000000002A#264 =
    .ok (.fromp ⟨42#64, 16#64⟩)

/-- The assembler accepts exactly the lines of 30_encoding.md R65 (part 5). -/
def Obligations.AssemblerAcceptsWellFormedLines : Prop :=
  ∀ l : Line, (assemble l).isSome = l.wellFormed

/-- The assembler puts every operand where its form wants it, "the first operand is always A", and writes
every other word as zero: for each row of the opcode map, in the form that row has, with a `<value>`
written in every way it can be, a pair, a bare word or a name (30_encoding.md, 5). -/
def Obligations.AssemblerPlacesOperands : Prop :=
  ∀ row ∈ opcodeTable,
    match row.form with
    | .none => assemble ⟨row.mnemonic, []⟩ = some ⟨row.op, 0#64, 0#64, 0#64, 0#64⟩
    | .word => ∀ w : Word,
        assemble ⟨row.mnemonic, [.word w.toNat]⟩ = some ⟨row.op, w, 0#64, 0#64, 0#64⟩
    | .value => ∀ (x : Operand) (a : Value), x.StandsFor a →
        assemble ⟨row.mnemonic, [x]⟩ = some ⟨row.op, a.lo, a.hi, 0#64, 0#64⟩
    | .wordWord => ∀ v w : Word,
        assemble ⟨row.mnemonic, [.word v.toNat, .word w.toNat]⟩ = some ⟨row.op, v, 0#64, w, 0#64⟩
    | .valueWord => ∀ (x : Operand) (a : Value) (w : Word), x.StandsFor a →
        assemble ⟨row.mnemonic, [x, .word w.toNat]⟩ = some ⟨row.op, a.lo, a.hi, w, 0#64⟩
    | .valueValue => ∀ (x y : Operand) (a b : Value), x.StandsFor a → y.StandsFor b →
        assemble ⟨row.mnemonic, [x, y]⟩ = some ⟨row.op, a.lo, a.hi, b.lo, b.hi⟩

/-- Every pseudo-instruction assembles as its expansion does, MOV as FROMP and the six comparing ones as CMP,
whatever the operands; its name selects what the host reads, nothing for MOV; and the six readings, from
the flags of one CMP, are the six comparisons of the numbers (30_encoding.md, 5; 43_compare.md; that they
are the comparisons of the numbers is an inference the spec marks as its own). -/
def Obligations.PseudoComparisonsReadTheOrder : Prop :=
  (∀ ops : List Operand, assemble ⟨"MOV", ops⟩ = assemble ⟨"FROMP", ops⟩ ∧
    ∀ name ∈ ["EQ", "LT", "GT", "NE", "LE", "GE"], assemble ⟨name, ops⟩ = assemble ⟨"CMP", ops⟩) ∧
  (∀ p ∈ [("MOV", Pseudo.mov), ("EQ", .eq), ("LT", .lt), ("GT", .gt), ("NE", .ne), ("LE", .le), ("GE", .ge)],
    pseudoNamed p.1 = some p.2) ∧
  (∀ q : Rsp, Pseudo.reading .mov q = none) ∧
  ∀ (a b : Value) (s : State), ∃ t, exec (.cmp a b) s = .next t ∧
    Pseudo.reading .eq t.rsp = some (decide (a.val = b.val)) ∧
    Pseudo.reading .lt t.rsp = some (decide (a.val < b.val)) ∧
    Pseudo.reading .gt t.rsp = some (decide (b.val < a.val)) ∧
    Pseudo.reading .ne t.rsp = some (decide (a.val ≠ b.val)) ∧
    Pseudo.reading .le t.rsp = some (decide (a.val ≤ b.val)) ∧
    Pseudo.reading .ge t.rsp = some (decide (b.val ≤ a.val))

/-! ## Values -/

/-- `val` is a bijection onto the naturals below 2¹²⁸ and `mk` is its inverse (00_scope.md, 5; 10_state.md,
1; an inference the spec marks as its own). -/
def Obligations.ValIsABijection : Prop :=
  (∀ v : Value, v.val < 2 ^ 128 ∧ Value.ofNat v.val = v) ∧
  (∀ n : Nat, (Value.ofNat n).val = n % 2 ^ 128) ∧
  (∀ v : Value, v.bits.toNat = v.val)

/-- Value equality is field-wise; the ordering is lexicographic with `hi` as the primary key; exactly one of
`x < y`, `x == y`, `x > y` holds; ordering is transitive; `(5, 0) < (0, 1)`, pairs written (lo, hi)
(10_state.md, 1). That equality is equality of the numbers and the ordering the order of the numbers is an
inference the spec marks as its own. -/
def Obligations.OrderIsLexicographicAndTotal : Prop :=
  (∀ x y : Value, (valueEq x y = true ↔ x.lo = y.lo ∧ x.hi = y.hi) ∧
    (valueEq x y = true ↔ x.val = y.val)) ∧
  (∀ x y : Value,
    (valueLt x y = true ↔ x.hi.toNat < y.hi.toNat ∨ (x.hi = y.hi ∧ x.lo.toNat < y.lo.toNat)) ∧
    (valueLt x y = true ↔ x.val < y.val) ∧ valueGt x y = valueLt y x) ∧
  (∀ x y : Value, (valueLt x y).toNat + (valueEq x y).toNat + (valueLt y x).toNat = 1) ∧
  (∀ x y z : Value, valueLt x y = true → valueLt y z = true → valueLt x z = true) ∧
  valueLt ⟨5#64, 0#64⟩ ⟨0#64, 1#64⟩ = true

/-! ## MUL64 -/

/-- MUL64, opcode 0x10, returns the exact product of `A.lo` and `B.lo`, never reduced; the flags are 0
(40_mul64.md, 1). That the high word never reaches 2⁶⁴−1 is an inference the spec marks as its own. -/
def Obligations.Mul64IsExact : Prop :=
  (∀ c : Command, c.op = 0x10#8 → decodeCommand c = .ok (.mul64 c.aLo c.bLo)) ∧
  ∀ (a b : Word) (s : State),
    ∃ v : Value, v.val = a.toNat * b.toNat ∧ v.hi.toNat ≤ 2 ^ 64 - 2 ∧
      exec (.mul64 a b) s = .next { s with rsp :=
        { valid := true, ill := false, gt := false, eq := false, lt := false, r := v } }

/-- 40_mul64.md R81: the direct primitive, the wide cast and the limb algorithm agree bit for bit, so the
choice of strategy is transparent, whatever the platform offers. -/
def Obligations.StrategiesAgreeBitForBit : Prop :=
  ∀ a b : Word, mul64Primitive a b = mul64Limb a b ∧ mul64Wide a b = mul64Limb a b ∧
    ∀ p : Platform, mul64 p.select a b = mul64Limb a b

/-- No step of the limb algorithm overflows a 64-bit word, with the bounds the spec gives (40_mul64.md, 3).
That `high32(x)` is at most 2, that `high32` of a partial product is at most 2³²−2, and that the sum `hi`
and the shift of `high32(p11)` lose nothing are inferences the spec marks as its own. -/
def Obligations.LimbStepsNeverOverflow : Prop :=
  ∀ a b : Word, ∃ t : LimbTrace, limbs a b = t ∧
    t.p00.toNat = a.toNat % 2 ^ 32 * (b.toNat % 2 ^ 32) ∧
    t.p01.toNat = a.toNat % 2 ^ 32 * (b.toNat / 2 ^ 32) ∧
    t.p10.toNat = a.toNat / 2 ^ 32 * (b.toNat % 2 ^ 32) ∧
    t.p11.toNat = a.toNat / 2 ^ 32 * (b.toNat / 2 ^ 32) ∧
    (∀ p ∈ [t.p00, t.p01, t.p10, t.p11],
      p.toNat ≤ (2 ^ 32 - 1) ^ 2 ∧ p.toNat / 2 ^ 32 ≤ 2 ^ 32 - 2) ∧
    t.x.toNat = t.p00.toNat / 2 ^ 32 + t.p01.toNat % 2 ^ 32 + t.p10.toNat % 2 ^ 32 ∧
    t.x.toNat ≤ 0x2FFFFFFFD ∧ t.x.toNat / 2 ^ 32 ≤ 2 ∧
    t.y.toNat = t.p01.toNat / 2 ^ 32 + t.p10.toNat / 2 ^ 32 + t.p11.toNat % 2 ^ 32
      + t.x.toNat / 2 ^ 32 ∧
    t.y.toNat ≤ 0x2FFFFFFFF ∧
    (shl64 (high32 t.p11) 32 (by decide)).toNat = t.p11.toNat / 2 ^ 32 * 2 ^ 32 ∧
    t.hi.toNat = t.y.toNat + t.p11.toNat / 2 ^ 32 * 2 ^ 32

/-- The laws of the multiplier, for every strategy: commutative, zero, one, powers of two, and the boundary
pairs of 40_mul64.md R88 (an inference the spec marks as its own). -/
def Obligations.MultiplierLaws : Prop :=
  ∀ st : MulStrategy,
    (∀ a b : Word, mul64 st a b = mul64 st b a) ∧
    (∀ a : Word, mul64 st a 0#64 = ⟨0#64, 0#64⟩ ∧ mul64 st a 1#64 = ⟨a, 0#64⟩) ∧
    (∀ (a : Word) (k : Nat) (_h1 : 1 ≤ k) (h63 : k ≤ 63),
      mul64 st a (BitVec.ofNat 64 (2 ^ k)) = ⟨shl64 a k h63, shr64 a (64 - k) (by omega)⟩) ∧
    mul64 st 0xFFFFFFFFFFFFFFFF#64 0xFFFFFFFFFFFFFFFF#64 = ⟨1#64, 0xFFFFFFFFFFFFFFFE#64⟩ ∧
    mul64 st 0x100000001#64 0x100000001#64 = ⟨0x200000001#64, 1#64⟩

/-! ## Shifts -/

/-- 41_shift.md R91: SHL, opcode 0x20, gives `val(A)·2ⁿ mod 2¹²⁸` for every `n` up to 2⁶⁴−1 (the whole word,
never masked); the flags are 0. -/
def Obligations.ShiftLeftMultiplies : Prop :=
  (∀ c : Command, c.op = 0x20#8 → decodeCommand c = .ok (.shl c.a c.bLo)) ∧
  ∀ (a : Value) (n : Word) (s : State),
    ∃ v : Value, v.val = a.val * 2 ^ n.toNat % 2 ^ 128 ∧
      exec (.shl a n) s = .next { s with rsp :=
        { valid := true, ill := false, gt := false, eq := false, lt := false, r := v } }

/-- SHR, opcode 0x21, gives `⌊val(A) / 2ⁿ⌋` for every `n`: zeros enter at bit 127 (41_shift.md, 1; the
mirror is an inference the spec marks as its own). -/
def Obligations.ShiftRightDivides : Prop :=
  (∀ c : Command, c.op = 0x21#8 → decodeCommand c = .ok (.shr c.a c.bLo)) ∧
  ∀ (a : Value) (n : Word) (s : State),
    ∃ v : Value, v.val = a.val / 2 ^ n.toNat ∧
      exec (.shr a n) s = .next { s with rsp :=
        { valid := true, ill := false, gt := false, eq := false, lt := false, r := v } }

/-- The shifts in bit terms: bit `i` of SHL is bit `i−n` of A when `i ≥ n`, else 0; bit `i` of SHR is bit
`i+n` of A when that is at most 127, else 0 (41_shift.md, 1; an inference the spec marks as its own). -/
def Obligations.ShiftsMoveBits : Prop :=
  ∀ (a : Value) (n : Word) (s : State), ∃ v w : Value,
    exec (.shl a n) s = .next { s with rsp := Rsp.answer v } ∧
    exec (.shr a n) s = .next { s with rsp := Rsp.answer w } ∧
    ∀ i < 128,
      v.bits.getLsbD i = (if n.toNat ≤ i then a.bits.getLsbD (i - n.toNat) else false) ∧
      w.bits.getLsbD i = (if i + n.toNat ≤ 127 then a.bits.getLsbD (i + n.toNat) else false)

/-- The exact bit loss of a round trip (41_shift.md, 1, R95, an inference the spec marks as its own):
left then right keeps `val(x) mod 2¹²⁸⁻ⁿ`, right then left keeps `val(x) − val(x) mod 2ⁿ`, for `n ≤ 128`;
both give ZERO above. Each returns `x` exactly when the bits it loses were all zero. -/
def Obligations.ShiftRoundTripLoss : Prop :=
  ∀ (x : Value) (n : Word) (s : State), ∃ l lr r rl : Value,
    exec (.shl x n) s = .next { s with rsp := Rsp.answer l } ∧
    exec (.shr l n) s = .next { s with rsp := Rsp.answer lr } ∧
    exec (.shr x n) s = .next { s with rsp := Rsp.answer r } ∧
    exec (.shl r n) s = .next { s with rsp := Rsp.answer rl } ∧
    lr.val = (if n.toNat ≤ 128 then x.val % 2 ^ (128 - n.toNat) else 0) ∧
    rl.val = (if n.toNat ≤ 128 then x.val - x.val % 2 ^ n.toNat else 0) ∧
    (n.toNat ≤ 128 → (lr = x ↔ x.val < 2 ^ (128 - n.toNat)) ∧ (rl = x ↔ x.val % 2 ^ n.toNat = 0))

/-- Shifts compose when the two amounts are added as natural numbers (41_shift.md, 1, R96, an inference the
spec marks as its own): together they shift by `m + n`, also where that sum does not fit in a word. -/
def Obligations.ShiftsCompose : Prop :=
  ∀ (x : Value) (m n : Word) (s : State), ∃ l ll r rr : Value,
    exec (.shl x m) s = .next { s with rsp := Rsp.answer l } ∧
    exec (.shl l n) s = .next { s with rsp := Rsp.answer ll } ∧
    exec (.shr x m) s = .next { s with rsp := Rsp.answer r } ∧
    exec (.shr r n) s = .next { s with rsp := Rsp.answer rr } ∧
    ll.val = x.val * 2 ^ (m.toNat + n.toNat) % 2 ^ 128 ∧
    rr.val = x.val / 2 ^ (m.toNat + n.toNat)

/-! ## Logic -/

/-- 42_bitwise.md R101 to R104: NOT, AND, OR, XOR, opcodes 0x30 to 0x33, apply the word operation to the
words of the same name; the flags are 0. -/
def Obligations.LogicIsWordwise : Prop :=
  (∀ c : Command, c.op = 0x30#8 → decodeCommand c = .ok (.not c.a)) ∧
  (∀ c : Command, c.op = 0x31#8 → decodeCommand c = .ok (.and c.a c.b)) ∧
  (∀ c : Command, c.op = 0x32#8 → decodeCommand c = .ok (.or c.a c.b)) ∧
  (∀ c : Command, c.op = 0x33#8 → decodeCommand c = .ok (.xor c.a c.b)) ∧
  ∀ (a b : Value) (s : State),
    (exec (.not a) s = .next { s with rsp :=
      { valid := true, ill := false, gt := false, eq := false, lt := false,
        r := ⟨~~~a.lo, ~~~a.hi⟩ } }) ∧
    (exec (.and a b) s = .next { s with rsp :=
      { valid := true, ill := false, gt := false, eq := false, lt := false,
        r := ⟨a.lo &&& b.lo, a.hi &&& b.hi⟩ } }) ∧
    (exec (.or a b) s = .next { s with rsp :=
      { valid := true, ill := false, gt := false, eq := false, lt := false,
        r := ⟨a.lo ||| b.lo, a.hi ||| b.hi⟩ } }) ∧
    (exec (.xor a b) s = .next { s with rsp :=
      { valid := true, ill := false, gt := false, eq := false, lt := false,
        r := ⟨a.lo ^^^ b.lo, a.hi ^^^ b.hi⟩ } })

/-- Bit `i` of a logical result is the operation on bit `i` of the operands, for the 128 bits of a value,
and `val(NOT A) = 2¹²⁸ − 1 − val(A)` (42_bitwise.md R100, in bit terms an inference the spec marks as its
own). -/
def Obligations.LogicIsBitwise : Prop :=
  ∀ (a b : Value) (s : State), ∃ n c o x : Value,
    exec (.not a) s = .next { s with rsp := Rsp.answer n } ∧
    exec (.and a b) s = .next { s with rsp := Rsp.answer c } ∧
    exec (.or a b) s = .next { s with rsp := Rsp.answer o } ∧
    exec (.xor a b) s = .next { s with rsp := Rsp.answer x } ∧
    (∀ i < 128, n.bits.getLsbD i = !a.bits.getLsbD i ∧
      c.bits.getLsbD i = (a.bits.getLsbD i && b.bits.getLsbD i) ∧
      o.bits.getLsbD i = (a.bits.getLsbD i || b.bits.getLsbD i) ∧
      x.bits.getLsbD i = (a.bits.getLsbD i ^^ b.bits.getLsbD i)) ∧
    n.val = 2 ^ 128 - 1 - a.val

/-! ## Comparison -/

/-- 43_compare.md R111: CMP, opcode 0x40, writes the three flags by the rule's formulas, the words compared
as unsigned numbers, and ZERO as the result. -/
def Obligations.CompareWritesItsFlags : Prop :=
  (∀ c : Command, c.op = 0x40#8 → decodeCommand c = .ok (.cmp c.a c.b)) ∧
  ∀ (a b : Value) (s : State),
    exec (.cmp a b) s = .next { s with rsp :=
      { valid := true, ill := false
        gt := decide (a.hi.toNat > b.hi.toNat) || (a.hi == b.hi && decide (a.lo.toNat > b.lo.toNat))
        eq := a.hi == b.hi && a.lo == b.lo
        lt := decide (a.hi.toNat < b.hi.toNat) || (a.hi == b.hi && decide (a.lo.toNat < b.lo.toNat))
        r := ⟨0#64, 0#64⟩ } }

/-- After CMP each flag is the comparison of the numbers, and exactly one of them is 1 (43_compare.md, R112,
an inference the spec marks as its own). -/
def Obligations.CompareIsNumericOrder : Prop :=
  ∀ (a b : Value) (s : State), ∃ t, exec (.cmp a b) s = .next t ∧
    t = { s with rsp :=
      { valid := true, ill := false, gt := decide (b.val < a.val), eq := decide (a.val = b.val),
        lt := decide (a.val < b.val), r := ⟨0#64, 0#64⟩ } } ∧
    t.rsp.lt.toNat + t.rsp.eq.toNat + t.rsp.gt.toNat = 1

/-- `CMP B, A` gives the flags of `CMP A, B` with `lt` and `gt` exchanged and `eq` the same (43_compare.md,
R113, an inference the spec marks as its own). -/
def Obligations.CompareIsSymmetric : Prop :=
  ∀ (a b : Value) (s : State), ∃ t u, exec (.cmp a b) s = .next t ∧ exec (.cmp b a) s = .next u ∧
    u.rsp.lt = t.rsp.gt ∧ u.rsp.gt = t.rsp.lt ∧ u.rsp.eq = t.rsp.eq

/-! ## Addition -/

/-- 44_add.md R121: ADD, opcode 0x50, is the word-wise sum with the carry of the low words, which is
`(val(A) + val(B)) mod 2¹²⁸`; the carry out of `hi` is not kept anywhere, the flags are 0. -/
def Obligations.AddWrapsSilently : Prop :=
  (∀ c : Command, c.op = 0x50#8 → decodeCommand c = .ok (.add c.a c.b)) ∧
  ∀ (a b : Value) (s : State),
    ∃ lo hi carry : Word, lo = a.lo + b.lo ∧
      carry = (if lo.toNat < b.lo.toNat then 1#64 else 0#64) ∧ hi = a.hi + b.hi + carry ∧
      (⟨lo, hi⟩ : Value).val = (a.val + b.val) % 2 ^ 128 ∧
      exec (.add a b) s = .next { s with rsp :=
        { valid := true, ill := false, gt := false, eq := false, lt := false, r := ⟨lo, hi⟩ } }

/-- 44_add.md R122: ADDW, opcode 0x51, adds the word `W` with the carry into `hi`, which is
`(val(A) + W) mod 2¹²⁸`, the same as ADD with `(W, 0)`; the flags are 0. -/
def Obligations.AddWordWrapsSilently : Prop :=
  (∀ c : Command, c.op = 0x51#8 → decodeCommand c = .ok (.addw c.a c.bLo)) ∧
  ∀ (a : Value) (w : Word) (s : State),
    exec (.addw a w) s = exec (.add a ⟨w, 0#64⟩) s ∧
    ∃ lo hi carry : Word, lo = a.lo + w ∧
      carry = (if lo.toNat < w.toNat then 1#64 else 0#64) ∧ hi = a.hi + carry ∧
      (⟨lo, hi⟩ : Value).val = (a.val + w.toNat) % 2 ^ 128 ∧
      exec (.addw a w) s = .next { s with rsp :=
        { valid := true, ill := false, gt := false, eq := false, lt := false, r := ⟨lo, hi⟩ } }

/-- The carry test is the carry out of bit 63, against either operand, and of the two additions of high
words at most one wraps (44_add.md, R123, an inference the spec marks as its own). -/
def Obligations.CarryTestIsCarryOut : Prop :=
  (∀ p q : Word, ((add64 p q).toNat < q.toNat ↔ 2 ^ 64 ≤ p.toNat + q.toNat) ∧
    ((add64 p q).toNat < p.toNat ↔ 2 ^ 64 ≤ p.toNat + q.toNat) ∧
    (carryOf (add64 p q) q).toNat = (p.toNat + q.toNat) / 2 ^ 64) ∧
  (∀ (a b : Value), 2 ^ 64 ≤ a.hi.toNat + b.hi.toNat →
    (add64 a.hi b.hi).toNat + (carryOf (add64 a.lo b.lo) b.lo).toNat < 2 ^ 64)

/-- ADD is commutative and associative, ZERO is its identity, and `A + (NOT A + ONE) = ZERO` (44_add.md,
R124, an inference the spec marks as its own). -/
def Obligations.AdditionLaws : Prop :=
  (∀ (a b : Value) (s : State), exec (.add a b) s = exec (.add b a) s) ∧
  (∀ (a b c : Value) (s : State), ∃ ab bc : Value,
    exec (.add a b) s = .next { s with rsp := Rsp.answer ab } ∧
    exec (.add b c) s = .next { s with rsp := Rsp.answer bc } ∧
    exec (.add ab c) s = exec (.add a bc) s) ∧
  (∀ (a : Value) (s : State), exec (.add a Value.zero) s = .next { s with rsp := Rsp.answer a }) ∧
  (∀ (a : Value) (s : State), ∃ n m : Value,
    exec (.not a) s = .next { s with rsp := Rsp.answer n } ∧
    exec (.add n Value.one) s = .next { s with rsp := Rsp.answer m } ∧
    exec (.add a m) s = .next { s with rsp := Rsp.answer Value.zero })

/-! ## 128-bit multiplication -/

/-- 45_mul128.md R131: MULW, opcode 0x60, is `add128(P, (0, Q.lo))` with `P`, `Q` the exact products of the
words with `W`, which is `val(A)·W mod 2¹²⁸`; the flags are 0. -/
def Obligations.MulWordWrapsSilently : Prop :=
  (∀ c : Command, c.op = 0x60#8 → decodeCommand c = .ok (.mulw c.a c.bLo)) ∧
  ∀ (a : Value) (w : Word) (s : State),
    ∃ p q v : Value, p.val = a.lo.toNat * w.toNat ∧ q.val = a.hi.toNat * w.toNat ∧
      v = ⟨p.lo, p.hi + q.lo⟩ ∧ v.val = a.val * w.toNat % 2 ^ 128 ∧
      exec (.mulw a w) s = .next { s with rsp :=
        { valid := true, ill := false, gt := false, eq := false, lt := false, r := v } }

/-- 45_mul128.md R132: MUL, opcode 0x61, sums `lo·lo` in full and the low words of `lo·hi` and `hi·lo`
shifted left by 64, which is `val(A)·val(B) mod 2¹²⁸`; the flags are 0. -/
def Obligations.MulWrapsSilently : Prop :=
  (∀ c : Command, c.op = 0x61#8 → decodeCommand c = .ok (.mul c.a c.b)) ∧
  ∀ (a b : Value) (s : State),
    ∃ p q r v : Value, p.val = a.lo.toNat * b.lo.toNat ∧ q.val = a.lo.toNat * b.hi.toNat ∧
      r.val = a.hi.toNat * b.lo.toNat ∧ v = ⟨p.lo, p.hi + q.lo + r.lo⟩ ∧
      v.val = a.val * b.val % 2 ^ 128 ∧
      exec (.mul a b) s = .next { s with rsp :=
        { valid := true, ill := false, gt := false, eq := false, lt := false, r := v } }

/-- `MULW A, W` is `MUL A, (W, 0)`, and MUL is commutative (45_mul128.md, R134, an inference the spec marks
as its own). -/
def Obligations.MulWordIsMulOfWord : Prop :=
  (∀ (a : Value) (w : Word) (s : State), exec (.mulw a w) s = exec (.mul a ⟨w, 0#64⟩) s) ∧
  (∀ (a b : Value) (s : State), exec (.mul a b) s = exec (.mul b a) s)

/-- 45_mul128.md R135: the multiplier strategy has no effect on MULW or MUL. -/
def Obligations.StrategyHasNoEffectOnProducts : Prop :=
  ∀ (st st' : MulStrategy) (a b : Value) (w : Word),
    mulWord st a w = mulWord st' a w ∧ mul128 st a b = mul128 st' a b

/-- MUL in one command equals doc00's description carried out command by command: three MUL64, two SHL by
64, two ADD, and both are the product modulo 2¹²⁸ (45_mul128.md; 95_test_vectors.md P1, here for all operands). -/
def Obligations.MulEqualsItsCommands : Prop :=
  ∀ (a b : Value) (s : State), ∃ p q r q' r' t v : Value,
    exec (.mul64 a.lo b.lo) s = .next { s with rsp := Rsp.answer p } ∧
    exec (.mul64 a.lo b.hi) s = .next { s with rsp := Rsp.answer q } ∧
    exec (.mul64 a.hi b.lo) s = .next { s with rsp := Rsp.answer r } ∧
    exec (.shl q 64#64) s = .next { s with rsp := Rsp.answer q' } ∧
    exec (.shl r 64#64) s = .next { s with rsp := Rsp.answer r' } ∧
    exec (.add p q') s = .next { s with rsp := Rsp.answer t } ∧
    exec (.add t r') s = .next { s with rsp := Rsp.answer v } ∧
    exec (.mul a b) s = .next { s with rsp := Rsp.answer v } ∧
    v.val = a.val * b.val % 2 ^ 128

/-! ## Constants and constructors -/

/-- 46_construct.md R141 to R145: ZERO, ONE, MAX, FROMW and FROMP, opcodes 0x70 to 0x74, give `(0, 0)`,
`(1, 0)`, `(2⁶⁴−1, 2⁶⁴−1)`, `(A.lo, 0)` and `(A.lo, A.hi)`; the flags are 0. -/
def Obligations.ConstructorsGiveTheirValues : Prop :=
  (∀ c : Command, c.op = 0x70#8 → decodeCommand c = .ok .zero) ∧
  (∀ c : Command, c.op = 0x71#8 → decodeCommand c = .ok .one) ∧
  (∀ c : Command, c.op = 0x72#8 → decodeCommand c = .ok .max) ∧
  (∀ c : Command, c.op = 0x73#8 → decodeCommand c = .ok (.fromw c.aLo)) ∧
  (∀ c : Command, c.op = 0x74#8 → decodeCommand c = .ok (.fromp c.a)) ∧
  ∀ (w : Word) (a : Value) (s : State),
    (exec .zero s = .next { s with rsp :=
      { valid := true, ill := false, gt := false, eq := false, lt := false, r := ⟨0#64, 0#64⟩ } }) ∧
    (exec .one s = .next { s with rsp :=
      { valid := true, ill := false, gt := false, eq := false, lt := false, r := ⟨1#64, 0#64⟩ } }) ∧
    (exec .max s = .next { s with rsp :=
      { valid := true, ill := false, gt := false, eq := false, lt := false,
        r := ⟨BitVec.ofNat 64 (2 ^ 64 - 1), BitVec.ofNat 64 (2 ^ 64 - 1)⟩ } }) ∧
    (exec (.fromw w) s = .next { s with rsp :=
      { valid := true, ill := false, gt := false, eq := false, lt := false, r := ⟨w, 0#64⟩ } }) ∧
    (exec (.fromp a) s = .next { s with rsp :=
      { valid := true, ill := false, gt := false, eq := false, lt := false, r := ⟨a.lo, a.hi⟩ } })

/-- The relations between the five (46_construct.md, R146, an inference the spec marks as its own). -/
def Obligations.ConstructorRelations : Prop :=
  ∀ s : State, exec .zero s = exec (.fromw 0#64) s ∧ exec .zero s = exec (.fromp ⟨0#64, 0#64⟩) s ∧
    exec .one s = exec (.fromw 1#64) s ∧
    exec .max s = exec (.fromp ⟨0xFFFFFFFFFFFFFFFF#64, 0xFFFFFFFFFFFFFFFF#64⟩) s ∧
    exec .max s = exec (.not Value.zero) s ∧
    ∀ w : Word, exec (.fromw w) s = exec (.fromp ⟨w, 0#64⟩) s

/-! ## Ports -/

/-- The block at its ports, tick by tick and for any LATENCY, refines the step: for every sequence of port
inputs, running the step over the commands transferred and the resets applied gives the `RSP` the block
holds once nothing is in flight (10_state.md, 2, 3 and 5; 70_reset_and_hazards.md, 1 and 2). The
tick-level choices are the model's (logs 9 to 12). -/
def Obligations.PortsRefineTheStep : Prop :=
  ∀ (latency : Opcode → Nat) (ins : List PortIn) (b : Block),
    Host.Core.run Sys2Proof.core (Block.events latency ins b).length
      (⟨b.settled, Block.events latency ins b⟩ : State) =
        .next (⟨(Block.ticks latency ins b).settled, []⟩ : State) ∧
    ((Block.ticks latency ins b).busy = none →
      (Block.ticks latency ins b).settled = (Block.ticks latency ins b).rsp)

/-- A transferred command gets its response after finitely many ticks, its latency, whatever the command
ports carry meanwhile; until then `cmd_ready` and `rsp_valid` are 0 and `RSP` holds, and then both are 1
(70_reset_and_hazards.md, 1, 2 and 3). That the number of ticks is LATENCY (log 9) and that `cmd_ready` is
1 as soon as nothing is in flight (log 11) are the model's choices. -/
def Obligations.TransferredCommandCompletes : Prop :=
  ∀ (latency : Opcode → Nat) (b : Block) (i : PortIn) (later : List PortIn), b.transfers i = true →
    later.length = latency i.cmd.op → (∀ j ∈ later, j.rst = false) →
    (∀ k < later.length,
      (Block.ticks latency (i :: later.take k) b).out.cmdReady = false ∧
      (Block.ticks latency (i :: later.take k) b).out.rspValid = false ∧
      (Block.ticks latency (i :: later.take k) b).rsp = b.rsp) ∧
    ∃ p : Rsp, step ⟨b.rsp, [.command i.cmd]⟩ = .next ⟨p, []⟩ ∧
      Block.ticks latency (i :: later) b = { rsp := p, busy := none } ∧
      (Block.ticks latency (i :: later) b).out.cmdReady = true ∧
      (Block.ticks latency (i :: later) b).out.rspValid = true

/-! ## Host scripts -/

/-- IF, GOTO and HALT are executed by the host: they change neither the block nor the variables
(30_encoding.md, 5). -/
def Obligations.HostStatementsKeepTheBlock : Prop :=
  ∀ (program : List ScriptLine) (s t : ScriptState),
    (∀ negated flag label, Stmt.run program s (.ifGoto negated flag label) = .ok t →
      t.block = s.block ∧ t.vars = s.vars) ∧
    (∀ label, Stmt.run program s (.goto label) = .ok t → t.block = s.block ∧ t.vars = s.vars) ∧
    (Stmt.run program s .halt = .ok t → t.block = s.block ∧ t.vars = s.vars)

/-- A command of a script is one step of the block, on the assembled command of a line or on a raw command
as it stands; `-> $name` makes `$name` hold `RSP.r` of that response while every other variable keeps what
it held, and without it no variable changes (30_encoding.md, 5; 95_test_vectors.md, 3). -/
def Obligations.ScriptCommandIsOneStep : Prop :=
  ∀ (program : List ScriptLine) (s : ScriptState) (c : Command) (dest : Option String) (stmt : Stmt),
    (stmt = .raw c dest ∨ ∃ mnemonic args ops, stmt = .command mnemonic args dest ∧
      resolveArgs s args = .ok ops ∧ assemble ⟨mnemonic, ops⟩ = some c) →
    ∃ (p : Rsp) (t : ScriptState), step (present c s.block) = .next ⟨p, s.block.inputs⟩ ∧
      Stmt.run program s stmt = .ok t ∧
      t.block = ⟨p, s.block.inputs⟩ ∧ t.line = s.line + 1 ∧ t.halted = s.halted ∧
      (∀ name, dest = some name → t.get name = .ok p.r) ∧
      (∀ other, dest ≠ some other → t.get other = s.get other) ∧
      (dest = none → t.vars = s.vars)

/-- A variable that has not been assigned must not be used: a command that names one, after operands that
do hold values, stops the script (30_encoding.md, 5; that it stops there is the model's choice, log 15). -/
def Obligations.UnassignedVariableStopsScript : Prop :=
  ∀ (program : List ScriptLine) (s : ScriptState) (mnemonic name : String) (before after : List Arg)
    (xs : List Operand) (dest : Option String), (∀ p ∈ s.vars, p.1 ≠ name) →
    resolveArgs s before = .ok xs → ∀ a ∈ [Arg.var name, Arg.lo name, Arg.hi name],
      Stmt.run program s (.command mnemonic (before ++ a :: after) dest) = .error (.unassigned name)

/-! ## The kind of reset -/

/-- `RESET_KIND` decides when reset is applied, never what it does (00_scope.md, 4;
70_reset_and_hazards.md, 1): under every kind, once the pin has been at its active level for the minimum
length the block is in its reset state, whatever came before; while the pin is inactive no reset is
applied; and the ports show an asynchronous reset in the tick itself, a synchronous one after it. How the
kind shows at the grain of a tick (log 16), that the block is ready in reset (log 11) and that reset wins
over a command offered in the same tick (log 10) are the model's choices. -/
def Obligations.ResetKindChangesNoEffect : Prop :=
  ∀ (kind : ResetKind) (latency : Opcode → Nat) (held : Nat) (b : Block),
    (∀ before pulse : List PinIn, pulse ≠ [] → kind.minTicks ≤ pulse.length →
      (∀ pin ∈ pulse, pin.rst = kind.activeLevel) →
      Block.ticks latency (samplePins kind held (before ++ pulse)) b =
        { rsp := { valid := false, ill := false, gt := false, eq := false, lt := false,
                   r := ⟨0#64, 0#64⟩ },
          busy := none }) ∧
    (∀ pins : List PinIn, (∀ pin ∈ pins, pin.rst ≠ kind.activeLevel) →
      ∀ i ∈ samplePins kind held pins, i.rst = false) ∧
    (∀ i : PortIn, b.outDuring kind.timing i =
      if i.rst = true ∧ kind.timing = .asynchronous then
        { cmdReady := true, rspValid := false, rspIll := false, rspGt := false, rspEq := false,
          rspLt := false, rspRLo := 0#64, rspRHi := 0#64 }
      else b.out)
end

