-- ==== Sys2Proof/Laws/Word.lean ====
section
/-! SUPPORT. The number and the bits of a value: `val` and `ofNat` are inverse (00_scope.md R10,
10_state.md R20). -/

namespace Sys2Proof

theorem Value.val_lt (v : Value) : v.val < 2 ^ 128 := by
  have h1 := v.lo.isLt
  have h2 := v.hi.isLt
  simp only [Value.val]; omega

theorem Value.val_ofNat (n : Nat) : (Value.ofNat n).val = n % 2 ^ 128 := by
  simp only [Value.val, Value.ofNat, BitVec.toNat_ofNat]; omega

theorem Value.ext_words {a b : Value} (hlo : a.lo = b.lo) (hhi : a.hi = b.hi) : a = b := by
  cases a; cases b; simp_all

theorem Value.ofNat_val (v : Value) : Value.ofNat v.val = v := by
  have h1 := v.lo.isLt
  have h2 := v.hi.isLt
  apply Value.ext_words <;> apply BitVec.eq_of_toNat_eq <;>
    simp only [Value.val, Value.ofNat, BitVec.toNat_ofNat] <;> omega

/-- Two values that stand for the same number are the same. -/
theorem Value.val_inj {a b : Value} (h : a.val = b.val) : a = b := by
  rw [← Value.ofNat_val a, ← Value.ofNat_val b, h]

/-- A value is `ofNat n` as soon as it stands for `n` modulo 2¹²⁸: how results are recognised. -/
theorem Value.eq_ofNat {v : Value} {n : Nat} (h : v.val = n % 2 ^ 128) : v = Value.ofNat n :=
  Value.val_inj (h.trans (Value.val_ofNat n).symm)

theorem Value.bits_toNat (v : Value) : v.bits.toNat = v.val := by
  have h1 := v.lo.isLt
  simp only [Value.bits, Value.val, BitVec.toNat_append]
  rw [Nat.shiftLeft_eq, Nat.or_comm, ← Nat.shiftLeft_eq, Nat.or_comm,
    ← Nat.shiftLeft_add_eq_or_of_lt h1, Nat.shiftLeft_eq]
  omega

theorem Value.bits_inj {a b : Value} (h : a.bits = b.bits) : a = b :=
  Value.val_inj (by rw [← Value.bits_toNat, ← Value.bits_toNat, h])

@[simp] theorem Value.val_zero : (⟨0#64, 0#64⟩ : Value).val = 0 := rfl
@[simp] theorem Value.val_one : Value.one.val = 1 := rfl
theorem Value.val_max : Value.max.val = 2 ^ 128 - 1 := rfl

end Sys2Proof
end

