-- ==== Sys2Proof/Laws/Ops.lean ====
section
/-! SUPPORT. One spec lemma per word primitive (00_scope.md R11, R12): the number it gives. -/

namespace Sys2Proof.Machine

theorem add64_toNat (x y : Word) : (add64 x y).toNat = (x.toNat + y.toNat) % 2 ^ 64 := by
  simp [add64]

theorem add64_toNat_of_lt {x y : Word} (h : x.toNat + y.toNat < 2 ^ 64) :
    (add64 x y).toNat = x.toNat + y.toNat := by
  rw [add64_toNat, Nat.mod_eq_of_lt h]

theorem low32_toNat (w : Word) : (low32 w).toNat = w.toNat % 2 ^ 32 := by
  simp only [low32, BitVec.toNat_ofNat]; omega

theorem high32_toNat (w : Word) : (high32 w).toNat = w.toNat / 2 ^ 32 := by
  have := w.isLt
  simp only [high32, BitVec.toNat_ofNat]; omega

/-- `mul32` is exact on limbs (R12). -/
theorem mul32_toNat (x y : Word) (hx : x.toNat < 2 ^ 32) (hy : y.toNat < 2 ^ 32) :
    (mul32 x y hx hy).toNat = x.toNat * y.toNat := by
  have h : x.toNat * y.toNat < 2 ^ 32 * 2 ^ 32 := Nat.mul_lt_mul'' hx hy
  simp only [mul32, BitVec.toNat_ofNat]
  exact Nat.mod_eq_of_lt h

/-- A partial product is at most `(2³²−1)²` (R12, R84). -/
theorem mul32_le (x y : Word) (hx : x.toNat < 2 ^ 32) (hy : y.toNat < 2 ^ 32) :
    (mul32 x y hx hy).toNat ≤ 0xFFFFFFFE00000001 := by
  rw [mul32_toNat]
  exact Nat.mul_le_mul (Nat.le_pred_of_lt hx) (Nat.le_pred_of_lt hy)

theorem shl64_toNat (x : Word) (k : Nat) (h : k ≤ 63) :
    (shl64 x k h).toNat = x.toNat * 2 ^ k % 2 ^ 64 := by
  simp [shl64]

theorem shr64_toNat (x : Word) (k : Nat) (h : k ≤ 63) :
    (shr64 x k h).toNat = x.toNat / 2 ^ k := by
  simp only [shr64, BitVec.toNat_ofNat]
  exact Nat.mod_eq_of_lt (Nat.lt_of_le_of_lt (Nat.div_le_self _ _) x.isLt)

theorem not64_toNat (x : Word) : (not64 x).toNat = 2 ^ 64 - 1 - x.toNat := by
  simp only [not64, BitVec.toNat_ofNat]; omega

/-- `not64` inverts every bit (R12). -/
theorem not64_eq (x : Word) : not64 x = ~~~x := by
  apply BitVec.eq_of_toNat_eq
  rw [not64_toNat, BitVec.toNat_not]

/-- Disjoint parts joined by `or64`: a part with its low `k` bits clear and a part below `2ᵏ` (R93). -/
theorem or64_toNat_of_disjoint {x y : Word} {q k : Nat} (hx : x.toNat = q * 2 ^ k)
    (hy : y.toNat < 2 ^ k) : (or64 x y).toNat = x.toNat + y.toNat := by
  simp only [or64, BitVec.toNat_or, hx]
  rw [← Nat.shiftLeft_eq, ← Nat.shiftLeft_add_eq_or_of_lt hy]

theorem or64_comm (x y : Word) : or64 x y = or64 y x := by
  simp only [or64]; exact BitVec.or_comm x y

theorem add64_eq (x y : Word) : add64 x y = x + y := by
  apply BitVec.eq_of_toNat_eq; rw [add64_toNat, BitVec.toNat_add]


end Sys2Proof.Machine
end

