-- ==== Sys2Proof/Laws/Add.lean ====
section
/-! SUPPORT. ADD128 adds modulo 2¹²⁸ (44_add.md R121 to R123). -/

namespace Sys2Proof.Machine

/-- The carry test: the carry is the carry out of bit 63 (R123). -/
theorem carryOf_toNat (p q : Word) :
    (carryOf (add64 p q) q).toNat = (p.toNat + q.toNat) / 2 ^ 64 := by
  have hp := p.isLt
  have hq := q.isLt
  simp only [carryOf, add64_toNat]
  split <;> simp only [BitVec.toNat_ofNat] <;> omega

theorem add128_val (a b : Value) : (add128 a b).val = (a.val + b.val) % 2 ^ 128 := by
  have h1 := a.lo.isLt
  have h2 := b.lo.isLt
  have h3 := a.hi.isLt
  have h4 := b.hi.isLt
  simp only [add128, Value.val, add64_toNat, carryOf_toNat]
  omega

/-- ADDW is ADD with the added operand `(W, 0)` (R122). -/
theorem addWord_eq_add128 (a : Value) (w : Word) : addWord a w = add128 a (wordValue w) := by
  have : add64 a.hi 0#64 = a.hi := by
    apply BitVec.eq_of_toNat_eq
    have := a.hi.isLt
    rw [add64_toNat, BitVec.toNat_ofNat]; omega
  simp [addWord, add128, wordValue, this]

theorem wordValue_val (w : Word) : (wordValue w).val = w.toNat := by
  simp [wordValue, Value.val]

theorem highValue_val (w : Word) : (highValue w).val = 2 ^ 64 * w.toNat := by
  simp [highValue, Value.val]

theorem addWord_val (a : Value) (w : Word) : (addWord a w).val = (a.val + w.toNat) % 2 ^ 128 := by
  rw [addWord_eq_add128, add128_val, wordValue_val]

/-- Adding a word in the high half leaves the low word alone (R131, R132). -/
theorem add128_highValue (p : Value) (w : Word) : add128 p (highValue w) = ⟨p.lo, p.hi + w⟩ := by
  apply Value.val_inj
  have h1 := p.lo.isLt
  have h2 := p.hi.isLt
  have h3 := w.isLt
  rw [add128_val, highValue_val]
  simp only [Value.val, BitVec.toNat_add]
  omega


end Sys2Proof.Machine
end

