-- ==== Sys2Proof/Laws/Assembler.lean ====
section
/-! SUPPORT. The assembler's names and operands agree with the forms of WellFormed.lean (30_encoding.md R57,
R60, R65, R67). -/

namespace Sys2Proof

/-- Every written name, pseudo-instruction or not, has the form of the row it stands for. -/
theorem rowNamed_form (n : String) : (rowNamed (expandMnemonic n)).map (·.form) = formOf n := by
  unfold expandMnemonic pseudoNamed formOf
  by_cases h0 : n = "MOV"
  · subst h0; decide
  by_cases h1 : n = "EQ"
  · subst h1; decide
  by_cases h2 : n = "LT"
  · subst h2; decide
  by_cases h3 : n = "GT"
  · subst h3; decide
  by_cases h4 : n = "NE"
  · subst h4; decide
  by_cases h5 : n = "LE"
  · subst h5; decide
  by_cases h6 : n = "GE"
  · subst h6; decide
  simp only [h0, h1, h2, h3, h4, h5, h6, if_false]
  by_cases g0 : n = "MUL64"
  · subst g0; decide
  by_cases g1 : n = "SHL"
  · subst g1; decide
  by_cases g2 : n = "SHR"
  · subst g2; decide
  by_cases g3 : n = "NOT"
  · subst g3; decide
  by_cases g4 : n = "AND"
  · subst g4; decide
  by_cases g5 : n = "OR"
  · subst g5; decide
  by_cases g6 : n = "XOR"
  · subst g6; decide
  by_cases g7 : n = "CMP"
  · subst g7; decide
  by_cases g8 : n = "ADD"
  · subst g8; decide
  by_cases g9 : n = "ADDW"
  · subst g9; decide
  by_cases g10 : n = "MULW"
  · subst g10; decide
  by_cases g11 : n = "MUL"
  · subst g11; decide
  by_cases g12 : n = "ZERO"
  · subst g12; decide
  by_cases g13 : n = "ONE"
  · subst g13; decide
  by_cases g14 : n = "MAX"
  · subst g14; decide
  by_cases g15 : n = "FROMW"
  · subst g15; decide
  by_cases g16 : n = "FROMP"
  · subst g16; decide
  simp [rowNamed, opcodeTable, h0, h1, h2, h3, h4, h5, h6, g0, g1, g2, g3, g4, g5, g6, g7, g8,
    g9, g10, g11, g12, g13, g14, g15, g16, Ne.symm g0, Ne.symm g1, Ne.symm g2, Ne.symm g3,
    Ne.symm g4, Ne.symm g5, Ne.symm g6, Ne.symm g7, Ne.symm g8, Ne.symm g9, Ne.symm g10, Ne.symm
    g11, Ne.symm g12, Ne.symm g13, Ne.symm g14, Ne.symm g15, Ne.symm g16]

theorem toWord_isSome (x : Operand) : x.toWord.isSome = x.isWord := by
  cases x <;> simp [Operand.toWord, Operand.isWord]
  split <;> simp_all

theorem toValue_isSome (x : Operand) : x.toValue.isSome = x.isValue := by
  cases x <;> simp only [Operand.toValue, Operand.isValue] <;> (try split) <;> simp_all

/-- Operands are placed exactly when the form accepts them. -/
theorem operandWords_isSome (f : Form) (l : List Operand) :
    (operandWords f l).isSome = f.accepts l := by
  unfold operandWords Form.accepts
  split <;> simp [← toWord_isSome, ← toValue_isSome]
  all_goals (try (rename_i x y; cases x.toWord <;> cases y.toWord <;> rfl))
  all_goals (try (rename_i x y; cases x.toValue <;> cases y.toWord <;> rfl))
  all_goals (try (rename_i x y; cases x.toValue <;> cases y.toValue <;> rfl))

theorem inRange_toNat (w : Word) : inRange w.toNat = true := by
  have := w.isLt
  simp only [inRange, decide_eq_true_eq]
  omega

theorem toWord_word (w : Word) : (Operand.word w.toNat).toWord = some w := by
  simp [Operand.toWord, inRange_toNat]

/-- A `<value>` is read as what it stands for, in every way it can be written (R65). -/
theorem toValue_of_standsFor {x : Operand} {v : Value} (h : x.StandsFor v) : x.toValue = some v := by
  cases h with
  | pair v => simp [Operand.toValue, inRange_toNat]
  | word w => simp [Operand.toValue, inRange_toNat]
  | zero => rfl
  | one => rfl
  | max => rfl

end Sys2Proof
end

