-- ==== Sys2Proof/Laws/Compare.lean ====
section
/-! SUPPORT. The flags of a comparison are the order of the numbers (43_compare.md R112). -/

namespace Sys2Proof.Machine

theorem valueEq_iff (a b : Value) : valueEq a b = true ↔ a.val = b.val := by
  constructor
  · intro h
    simp only [valueEq, Bool.and_eq_true, beq_iff_eq] at h
    rw [Value.ext_words h.2 h.1]
  · intro h
    rw [Value.val_inj h]
    simp [valueEq]

theorem hi_eq_iff (a b : Value) : (a.hi == b.hi) = true ↔ a.hi.toNat = b.hi.toNat := by
  rw [beq_iff_eq, BitVec.toNat_inj]

theorem valueLt_iff (a b : Value) : valueLt a b = true ↔ a.val < b.val := by
  have h1 := a.lo.isLt
  have h2 := b.lo.isLt
  simp only [valueLt, Bool.or_eq_true, Bool.and_eq_true, decide_eq_true_eq, hi_eq_iff, Value.val]
  omega

theorem valueGt_iff (a b : Value) : valueGt a b = true ↔ b.val < a.val := by
  have h1 := a.lo.isLt
  have h2 := b.lo.isLt
  simp only [valueGt, Bool.or_eq_true, Bool.and_eq_true, decide_eq_true_eq, hi_eq_iff, Value.val]
  omega

/-- Exactly one flag is 1 after a comparison (R112). -/
theorem order_flags_one_hot (a b : Value) :
    (valueLt a b).toNat + (valueEq a b).toNat + (valueGt a b).toNat = 1 := by
  have hl := valueLt_iff a b
  have he := valueEq_iff a b
  have hg := valueGt_iff a b
  rcases Nat.lt_trichotomy a.val b.val with h | h | h
  · have h1 : valueLt a b = true := hl.2 h
    have h2 : valueEq a b = false := by rw [Bool.eq_false_iff, ne_eq, he]; omega
    have h3 : valueGt a b = false := by rw [Bool.eq_false_iff, ne_eq, hg]; omega
    rw [h1, h2, h3]; rfl
  · have h1 : valueLt a b = false := by rw [Bool.eq_false_iff, ne_eq, hl]; omega
    have h2 : valueEq a b = true := he.2 h
    have h3 : valueGt a b = false := by rw [Bool.eq_false_iff, ne_eq, hg]; omega
    rw [h1, h2, h3]; rfl
  · have h1 : valueLt a b = false := by rw [Bool.eq_false_iff, ne_eq, hl]; omega
    have h2 : valueEq a b = false := by rw [Bool.eq_false_iff, ne_eq, he]; omega
    have h3 : valueGt a b = true := hg.2 h
    rw [h1, h2, h3]; rfl

/-- The three flags as decisions about the numbers. -/
theorem flags_eq_decide (a b : Value) :
    valueLt a b = decide (a.val < b.val) ∧ valueEq a b = decide (a.val = b.val) ∧
      valueGt a b = decide (b.val < a.val) := by
  refine ⟨?_, ?_, ?_⟩
  · rw [Bool.eq_iff_iff, valueLt_iff, decide_eq_true_eq]
  · rw [Bool.eq_iff_iff, valueEq_iff, decide_eq_true_eq]
  · rw [Bool.eq_iff_iff, valueGt_iff, decide_eq_true_eq]


end Sys2Proof.Machine
end

