-- ==== Sys2Proof/Laws/Decode.lean ====
section
/-! SUPPORT. What decoding can answer (30_encoding.md R61, R62), and the command record as a number
(R56). -/

namespace Sys2Proof

/-- Every opcode has a row or is reserved, never both (R61, R62). -/
theorem rowOf_isNone_eq_reservedOpcode (op : Opcode) : (rowOf op).isNone = reservedOpcode op := by
  revert op; decide

/-- The row found for an opcode carries that opcode. -/
theorem rowOf_op {op : Opcode} {row : OpcodeRow} (h : rowOf op = some row) : row.op = op := by
  simpa using List.find?_some h

theorem rowOf_mem {op : Opcode} {row : OpcodeRow} (h : rowOf op = some row) : row ∈ opcodeTable :=
  List.mem_of_find?_eq_some h

/-- Decoding a command whose opcode has a row makes that row's instruction (R61). -/
theorem decodeCommand_of_row {c : Command} {row : OpcodeRow} (h : rowOf c.op = some row) :
    decodeCommand c = .ok (row.make c) := by
  simp only [decodeCommand, h]

/-- Decoding rejects exactly the reserved opcodes, by name (R62). -/
theorem decodeCommand_of_reserved {c : Command} (h : reservedOpcode c.op = true) :
    decodeCommand c = .error (.reservedOpcode c.op) := by
  have hn := rowOf_isNone_eq_reservedOpcode c.op
  rw [h, Option.isNone_iff_eq_none] at hn
  simp only [decodeCommand, hn]

/-- The two ways decoding ends (R61). -/
theorem decodeCommand_cases (c : Command) :
    (∃ row ∈ opcodeTable, row.op = c.op ∧ reservedOpcode c.op = false ∧
      decodeCommand c = .ok (row.make c)) ∨
    (reservedOpcode c.op = true ∧ decodeCommand c = .error (.reservedOpcode c.op)) := by
  have hn := rowOf_isNone_eq_reservedOpcode c.op
  cases h : rowOf c.op with
  | none =>
    rw [h] at hn
    exact .inr ⟨hn.symm, decodeCommand_of_reserved hn.symm⟩
  | some row =>
    rw [h] at hn
    exact .inl ⟨row, rowOf_mem h, rowOf_op h, hn.symm, decodeCommand_of_row h⟩

/-- The encoder's command decodes to the instruction, field by field. -/
theorem decodeCommand_encodeCommand (i : Instr) : decodeCommand (encodeCommand i) = .ok i := by
  cases i <;> rfl

/-- Appending bit vectors adds their numbers at their places. -/
theorem toNat_append_eq {m n : Nat} (x : BitVec m) (y : BitVec n) :
    (x ++ y).toNat = x.toNat * 2 ^ n + y.toNat := by
  rw [BitVec.toNat_append, ← Nat.shiftLeft_add_eq_or_of_lt y.isLt, Nat.shiftLeft_eq]

/-- The command record as a number: each field at its bit position (R56). -/
theorem Command.toRecord_toNat (c : Command) :
    c.toRecord.toNat = c.op.toNat * 2 ^ 256 + c.bHi.toNat * 2 ^ 192 + c.bLo.toNat * 2 ^ 128
      + c.aHi.toNat * 2 ^ 64 + c.aLo.toNat := by
  simp only [Command.toRecord, toNat_append_eq]
  ring

theorem Command.ofRecord_toRecord (c : Command) : Command.ofRecord c.toRecord = c := by
  have h := c.toRecord_toNat
  have h1 := c.aLo.isLt
  have h2 := c.aHi.isLt
  have h3 := c.bLo.isLt
  have h4 := c.bHi.isLt
  have h5 := c.op.isLt
  have e0 : c.toRecord.extractLsb' 0 64 = c.aLo := by
    apply BitVec.eq_of_toNat_eq
    rw [BitVec.extractLsb'_toNat, Nat.shiftRight_eq_div_pow, h]; omega
  have e1 : c.toRecord.extractLsb' 64 64 = c.aHi := by
    apply BitVec.eq_of_toNat_eq
    rw [BitVec.extractLsb'_toNat, Nat.shiftRight_eq_div_pow, h]; omega
  have e2 : c.toRecord.extractLsb' 128 64 = c.bLo := by
    apply BitVec.eq_of_toNat_eq
    rw [BitVec.extractLsb'_toNat, Nat.shiftRight_eq_div_pow, h]; omega
  have e3 : c.toRecord.extractLsb' 192 64 = c.bHi := by
    apply BitVec.eq_of_toNat_eq
    rw [BitVec.extractLsb'_toNat, Nat.shiftRight_eq_div_pow, h]; omega
  have e4 : c.toRecord.extractLsb' 256 8 = c.op := by
    apply BitVec.eq_of_toNat_eq
    rw [BitVec.extractLsb'_toNat, Nat.shiftRight_eq_div_pow, h]; omega
  simp only [Command.ofRecord, e0, e1, e2, e3, e4]

theorem Command.toRecord_ofRecord (r : CmdRecord) : (Command.ofRecord r).toRecord = r := by
  have := r.isLt
  apply BitVec.eq_of_toNat_eq
  rw [Command.toRecord_toNat]
  simp only [Command.ofRecord, BitVec.extractLsb'_toNat, Nat.shiftRight_eq_div_pow]
  omega

/-- A row of the opcode map is the row of its own opcode. -/
theorem rowOf_row {row : OpcodeRow} (h : row ∈ opcodeTable) : rowOf row.op = some row := by
  simp only [opcodeTable, List.mem_cons, List.not_mem_nil, or_false] at h
  rcases h with rfl | rfl | rfl | rfl | rfl | rfl | rfl | rfl | rfl | rfl | rfl | rfl | rfl | rfl | rfl
    | rfl | rfl <;> simp [rowOf, opcodeTable]

/-- A row makes its instruction from the words its form reads alone (R57, R63). -/
theorem make_zeroIgnored {row : OpcodeRow} (h : row ∈ opcodeTable) (c : Command) :
    row.make (c.zeroIgnored row.form) = row.make c := by
  simp only [opcodeTable, List.mem_cons, List.not_mem_nil, or_false] at h
  rcases h with rfl | rfl | rfl | rfl | rfl | rfl | rfl | rfl | rfl | rfl | rfl | rfl | rfl | rfl | rfl
    | rfl | rfl <;> simp [Command.zeroIgnored, Form.reads, Command.a, Command.b]

/-- How many opcodes R62 lists. -/
theorem reservedOpcode_count :
    ((List.range 256).filter fun n => reservedOpcode (BitVec.ofNat 8 n)).length = 239 := by
  decide +kernel


end Sys2Proof
end

