-- ==== Sys2Proof/Laws/Logic.lean ====
section
/-! SUPPORT. LOGIC128 works bit by bit on the 128 bits of a value (42_bitwise.md R100). -/

namespace Sys2Proof.Machine

theorem bits_wordwise_not64 (a : Value) : (wordwise not64 a).bits = ~~~a.bits := by
  simp only [wordwise, Value.bits, not64_eq]
  exact BitVec.not_append.symm

theorem bits_wordwise₂_and64 (a b : Value) : (wordwise₂ and64 a b).bits = a.bits &&& b.bits := by
  exact BitVec.and_append.symm

theorem bits_wordwise₂_or64 (a b : Value) : (wordwise₂ or64 a b).bits = a.bits ||| b.bits := by
  exact BitVec.or_append.symm

theorem bits_wordwise₂_xor64 (a b : Value) : (wordwise₂ xor64 a b).bits = a.bits ^^^ b.bits := by
  exact BitVec.xor_append.symm

theorem wordwise_not64_val (a : Value) : (wordwise not64 a).val = 2 ^ 128 - 1 - a.val := by
  have h1 := a.lo.isLt
  have h2 := a.hi.isLt
  simp only [wordwise, Value.val, not64_toNat]; omega

end Sys2Proof.Machine
end

