-- ==== Sys2Proof/Laws/Mul64.lean ====
section
/-! SUPPORT. The three strategies of MULT64 give the exact product (40_mul64.md R84, R85, R81). -/

namespace Sys2Proof.Machine

/-- The product of two words fits in 128 bits (R85). -/
theorem mul_words_le (a b : Word) : a.toNat * b.toNat ≤ (2 ^ 64 - 1) * (2 ^ 64 - 1) :=
  Nat.mul_le_mul (Nat.le_pred_of_lt a.isLt) (Nat.le_pred_of_lt b.isLt)

/-- `x` of R83 is an exact sum and keeps its bits 32 and 33 (R84, R177). -/
theorem limbs_x_toNat (a b : Word) :
    (limbs a b).x.toNat = (limbs a b).p00.toNat / 2 ^ 32 + (limbs a b).p01.toNat % 2 ^ 32
      + (limbs a b).p10.toNat % 2 ^ 32 := by
  have h := (limbs a b).p00.isLt
  show (add64 (add64 (high32 (limbs a b).p00) (low32 (limbs a b).p01)) (low32 (limbs a b).p10)).toNat
    = _
  simp only [add64_toNat, high32_toNat, low32_toNat]
  omega

/-- `y` of R83 is an exact sum (R84). -/
theorem limbs_y_toNat (a b : Word) :
    (limbs a b).y.toNat = (limbs a b).p01.toNat / 2 ^ 32 + (limbs a b).p10.toNat / 2 ^ 32
      + (limbs a b).p11.toNat % 2 ^ 32 + (limbs a b).x.toNat / 2 ^ 32 := by
  have h1 := (limbs a b).p01.isLt
  have h2 := (limbs a b).p10.isLt
  have h3 := (limbs a b).x.isLt
  show (add64 (add64 (add64 (high32 (limbs a b).p01) (high32 (limbs a b).p10))
    (low32 (limbs a b).p11)) (high32 (limbs a b).x)).toNat = _
  simp only [add64_toNat, high32_toNat, low32_toNat]
  omega

/-- `lo` of R83 joins disjoint parts. -/
theorem limbs_lo_toNat (a b : Word) :
    (limbs a b).lo.toNat = (limbs a b).p00.toNat % 2 ^ 32
      + (limbs a b).x.toNat % 2 ^ 32 * 2 ^ 32 := by
  show (or64 (low32 (limbs a b).p00) (shl64 (limbs a b).x 32 (by decide))).toNat = _
  have hs : (shl64 (limbs a b).x 32 (by decide)).toNat
      = (limbs a b).x.toNat % 2 ^ 32 * 2 ^ 32 := by
    rw [shl64_toNat]; omega
  rw [or64_comm, or64_toNat_of_disjoint hs (low32_lt _), hs, low32_toNat]
  omega

/-- The limbs of the operands put together again (R85). -/
theorem limbs_product (a b : Word) :
    a.toNat * b.toNat = (limbs a b).p00.toNat
      + ((limbs a b).p01.toNat + (limbs a b).p10.toNat) * 2 ^ 32
      + (limbs a b).p11.toNat * 2 ^ 64 := by
  have h00 : (limbs a b).p00.toNat = a.toNat % 2 ^ 32 * (b.toNat % 2 ^ 32) := by
    rw [← low32_toNat, ← low32_toNat]
    exact mul32_toNat _ _ (low32_lt a) (low32_lt b)
  have h01 : (limbs a b).p01.toNat = a.toNat % 2 ^ 32 * (b.toNat / 2 ^ 32) := by
    rw [← low32_toNat, ← high32_toNat]
    exact mul32_toNat _ _ (low32_lt a) (high32_lt b)
  have h10 : (limbs a b).p10.toNat = a.toNat / 2 ^ 32 * (b.toNat % 2 ^ 32) := by
    rw [← high32_toNat, ← low32_toNat]
    exact mul32_toNat _ _ (high32_lt a) (low32_lt b)
  have h11 : (limbs a b).p11.toNat = a.toNat / 2 ^ 32 * (b.toNat / 2 ^ 32) := by
    rw [← high32_toNat, ← high32_toNat]
    exact mul32_toNat _ _ (high32_lt a) (high32_lt b)
  have ha : a.toNat = a.toNat % 2 ^ 32 + a.toNat / 2 ^ 32 * 2 ^ 32 := by omega
  have hb : b.toNat = b.toNat % 2 ^ 32 + b.toNat / 2 ^ 32 * 2 ^ 32 := by omega
  rw [h00, h01, h10, h11]
  generalize a.toNat % 2 ^ 32 = a0 at *
  generalize a.toNat / 2 ^ 32 = a1 at *
  generalize b.toNat % 2 ^ 32 = b0 at *
  generalize b.toNat / 2 ^ 32 = b1 at *
  rw [ha, hb]
  ring

/-- The limb algorithm is exact (R85). -/
theorem mul64Limb_val (a b : Word) : (mul64Limb a b).val = a.toNat * b.toNat := by
  have hp := limbs_product a b
  have hle := mul_words_le a b
  have hx := limbs_x_toNat a b
  have hy := limbs_y_toNat a b
  have hlo := limbs_lo_toNat a b
  have hhi : (limbs a b).hi.toNat = ((limbs a b).y.toNat
      + (limbs a b).p11.toNat / 2 ^ 32 * 2 ^ 32 % 2 ^ 64) % 2 ^ 64 := by
    show (add64 (limbs a b).y (shl64 (high32 (limbs a b).p11) 32 (by decide))).toNat = _
    rw [add64_toNat, shl64_toNat, high32_toNat]
  have h11 := (limbs a b).p11.isLt
  show (limbs a b).lo.toNat + 2 ^ 64 * (limbs a b).hi.toNat = _
  rw [hlo, hhi]
  generalize a.toNat * b.toNat = m at *
  omega

theorem mul64Primitive_val (a b : Word) : (mul64Primitive a b).val = a.toNat * b.toNat := by
  have hle := mul_words_le a b
  simp only [mul64Primitive, Value.val, BitVec.toNat_ofNat]
  generalize a.toNat * b.toNat = m at *
  omega

theorem mul64Wide_val (a b : Word) : (mul64Wide a b).val = a.toNat * b.toNat := by
  have ha := a.isLt
  have hb := b.isLt
  have hle := mul_words_le a b
  have hp : (a.setWidth 128 * b.setWidth 128).toNat = a.toNat * b.toNat := by
    rw [BitVec.toNat_mul, BitVec.toNat_setWidth, BitVec.toNat_setWidth,
      Nat.mod_eq_of_lt (show a.toNat < 2 ^ 128 by omega),
      Nat.mod_eq_of_lt (show b.toNat < 2 ^ 128 by omega)]
    exact Nat.mod_eq_of_lt (by omega)
  simp only [mul64Wide, Value.val, BitVec.extractLsb'_toNat, hp]
  generalize a.toNat * b.toNat = m at *
  simp only [Nat.shiftRight_eq_div_pow]
  omega

/-- Every strategy returns the exact product (R81, R85). -/
theorem mul64_val (st : MulStrategy) (a b : Word) : (mul64 st a b).val = a.toNat * b.toNat := by
  cases st
  · exact mul64Primitive_val a b
  · exact mul64Wide_val a b
  · exact mul64Limb_val a b

/-- The low word of a product. -/
theorem mul64_lo_toNat (st : MulStrategy) (a b : Word) :
    (mul64 st a b).lo.toNat = a.toNat * b.toNat % 2 ^ 64 := by
  have h := mul64_val st a b
  have hlo := (mul64 st a b).lo.isLt
  simp only [Value.val] at h
  omega

end Sys2Proof.Machine
end

