-- ==== Sys2Proof/Laws/Mul128.lean ====
section
/-! SUPPORT. MULW and MUL multiply modulo 2¹²⁸ for every strategy (45_mul128.md R133). -/

namespace Sys2Proof.Machine

/-- A product placed in the high word keeps only its low 64 bits (R131). -/
theorem high_part_mod (m : Nat) : 2 ^ 64 * (m % 2 ^ 64) % 2 ^ 128 = 2 ^ 64 * m % 2 ^ 128 := by
  omega

theorem mulWord_val (st : MulStrategy) (a : Value) (w : Word) :
    (mulWord st a w).val = a.val * w.toNat % 2 ^ 128 := by
  have h : a.val * w.toNat = a.lo.toNat * w.toNat + 2 ^ 64 * (a.hi.toNat * w.toNat) := by
    simp only [Value.val]; ring
  simp only [mulWord, add128_val, highValue_val, mul64_val, mul64_lo_toNat]
  rw [h, Nat.add_mod, high_part_mod, ← Nat.add_mod]

theorem mul128_val (st : MulStrategy) (a b : Value) :
    (mul128 st a b).val = a.val * b.val % 2 ^ 128 := by
  have h : a.val * b.val = a.lo.toNat * b.lo.toNat + 2 ^ 64 * (a.lo.toNat * b.hi.toNat)
      + 2 ^ 64 * (a.hi.toNat * b.lo.toNat) + 2 ^ 128 * (a.hi.toNat * b.hi.toNat) := by
    simp only [Value.val]; ring
  simp only [mul128, add128_val, highValue_val, mul64_val, mul64_lo_toNat]
  rw [h, Nat.add_mul_mod_self_left]
  generalize a.lo.toNat * b.lo.toNat = p
  generalize a.lo.toNat * b.hi.toNat = q
  generalize a.hi.toNat * b.lo.toNat = r
  omega

end Sys2Proof.Machine
end

