-- ==== Sys2Proof/Laws/PerInstr.lean ====
section
/-! SUPPORT. Facts about every instruction as syntax, one lemma per constructor. Family `EncodesToItsRow`: the
opcode the encoder writes has a row in the opcode map (30_encoding.md R60) whose form is the
instruction's, and the words that form ignores are written as zero (R63, R65). -/

namespace Sys2Proof.Laws.EncodesToItsRow

/-- The encoder agrees with the opcode map about this instruction. -/
def Statement (i : Instr) : Prop :=
  ∃ row ∈ opcodeTable, row.op = (encodeCommand i).op ∧ row.form = i.form ∧
    row.make (encodeCommand i) = i ∧ (encodeCommand i).zeroIgnored row.form = encodeCommand i

/-- How each constructor's lemma is shown: the row an opcode finds is the one meant. -/
theorem of_row {i : Instr} {row : OpcodeRow} (h : rowOf (encodeCommand i).op = some row)
    (hf : row.form = i.form) (hm : row.make (encodeCommand i) = i)
    (hz : (encodeCommand i).zeroIgnored row.form = encodeCommand i) : Statement i :=
  ⟨row, rowOf_mem h, rowOf_op h, hf, hm, hz⟩

theorem mul64 (a b : Word) : Statement (.mul64 a b) := of_row rfl rfl rfl rfl
theorem shl (a : Value) (n : Word) : Statement (.shl a n) := of_row rfl rfl rfl rfl
theorem shr (a : Value) (n : Word) : Statement (.shr a n) := of_row rfl rfl rfl rfl
theorem not (a : Value) : Statement (.not a) := of_row rfl rfl rfl rfl
theorem and (a b : Value) : Statement (.and a b) := of_row rfl rfl rfl rfl
theorem or (a b : Value) : Statement (.or a b) := of_row rfl rfl rfl rfl
theorem xor (a b : Value) : Statement (.xor a b) := of_row rfl rfl rfl rfl
theorem cmp (a b : Value) : Statement (.cmp a b) := of_row rfl rfl rfl rfl
theorem add (a b : Value) : Statement (.add a b) := of_row rfl rfl rfl rfl
theorem addw (a : Value) (w : Word) : Statement (.addw a w) := of_row rfl rfl rfl rfl
theorem mulw (a : Value) (w : Word) : Statement (.mulw a w) := of_row rfl rfl rfl rfl
theorem mul (a b : Value) : Statement (.mul a b) := of_row rfl rfl rfl rfl
theorem zero : Statement .zero := of_row rfl rfl rfl rfl
theorem one : Statement .one := of_row rfl rfl rfl rfl
theorem max : Statement .max := of_row rfl rfl rfl rfl
theorem fromw (w : Word) : Statement (.fromw w) := of_row rfl rfl rfl rfl
theorem fromp (a : Value) : Statement (.fromp a) := of_row rfl rfl rfl rfl

end Sys2Proof.Laws.EncodesToItsRow
end

