-- ==== Sys2Proof/Laws/State.lean ====
section
/-! SUPPORT. One lemma per field per update of State, so that no later proof unfolds a record update. -/

namespace Sys2Proof.Machine

variable (s : State) (v : Value) (c : Command) (rest : List Input) (lt eq gt : Bool)

@[simp] theorem respond_valid : (respond v s).rsp.valid = true := rfl
@[simp] theorem respond_ill : (respond v s).rsp.ill = false := rfl
@[simp] theorem respond_gt : (respond v s).rsp.gt = false := rfl
@[simp] theorem respond_eq : (respond v s).rsp.eq = false := rfl
@[simp] theorem respond_lt : (respond v s).rsp.lt = false := rfl
@[simp] theorem respond_r : (respond v s).rsp.r = v := rfl
@[simp] theorem respond_inputs : (respond v s).inputs = s.inputs := rfl

@[simp] theorem respondOrder_valid : (respondOrder lt eq gt s).rsp.valid = true := rfl
@[simp] theorem respondOrder_ill : (respondOrder lt eq gt s).rsp.ill = false := rfl
@[simp] theorem respondOrder_gt : (respondOrder lt eq gt s).rsp.gt = gt := rfl
@[simp] theorem respondOrder_eq : (respondOrder lt eq gt s).rsp.eq = eq := rfl
@[simp] theorem respondOrder_lt : (respondOrder lt eq gt s).rsp.lt = lt := rfl
@[simp] theorem respondOrder_r : (respondOrder lt eq gt s).rsp.r = ⟨0#64, 0#64⟩ := rfl
@[simp] theorem respondOrder_inputs : (respondOrder lt eq gt s).inputs = s.inputs := rfl

@[simp] theorem reportIll_valid : (reportIll s).rsp.valid = true := rfl
@[simp] theorem reportIll_ill : (reportIll s).rsp.ill = true := rfl
@[simp] theorem reportIll_gt : (reportIll s).rsp.gt = false := rfl
@[simp] theorem reportIll_eq : (reportIll s).rsp.eq = false := rfl
@[simp] theorem reportIll_lt : (reportIll s).rsp.lt = false := rfl
@[simp] theorem reportIll_r : (reportIll s).rsp.r = ⟨0#64, 0#64⟩ := rfl
@[simp] theorem reportIll_inputs : (reportIll s).inputs = s.inputs := rfl

@[simp] theorem applyReset_rsp : (applyReset s).rsp = Rsp.reset := rfl
@[simp] theorem applyReset_inputs : (applyReset s).inputs = s.inputs := rfl
@[simp] theorem withInputs_rsp : (withInputs rest s).rsp = s.rsp := rfl
@[simp] theorem withInputs_inputs : (withInputs rest s).inputs = rest := rfl
@[simp] theorem present_rsp : (present c s).rsp = s.rsp := rfl
@[simp] theorem present_inputs : (present c s).inputs = .command c :: s.inputs := rfl
@[simp] theorem idle_eq : idle s = s := rfl
@[simp] theorem withInputs_present : withInputs s.inputs (present c s) = s := rfl

@[simp] theorem reset_rsp : State.reset.rsp = Rsp.reset := rfl
@[simp] theorem reset_inputs : State.reset.inputs = [] := rfl

end Sys2Proof.Machine
end

