-- ==== Sys2Proof/Laws/Step.lean ====
section
/-! SUPPORT. What an instruction and a step can do, said once (10_state.md R28, R35; 60_exceptions.md R150,
R152). -/

namespace Sys2Proof.Machine

/-- Every instruction answers by `respond` or, CMP alone, by the flags of a comparison: nothing else
happens, and nothing stops (R28, R150). -/
theorem exec_cases (i : Instr) (s : State) :
    (∃ v, ∀ s', exec i s' = .next (respond v s')) ∨
    (∃ a b, i = .cmp a b ∧
      exec i s = .next (respondOrder (valueLt a b) (valueEq a b) (valueGt a b) s)) := by
  cases i with
  | cmp a b => exact .inr ⟨a, b, rfl, rfl⟩
  | mul64 a b => exact .inl ⟨_, fun _ => rfl⟩
  | shl a n => exact .inl ⟨_, fun _ => rfl⟩
  | shr a n => exact .inl ⟨_, fun _ => rfl⟩
  | not a => exact .inl ⟨_, fun _ => rfl⟩
  | and a b => exact .inl ⟨_, fun _ => rfl⟩
  | or a b => exact .inl ⟨_, fun _ => rfl⟩
  | xor a b => exact .inl ⟨_, fun _ => rfl⟩
  | add a b => exact .inl ⟨_, fun _ => rfl⟩
  | addw a w => exact .inl ⟨_, fun _ => rfl⟩
  | mulw a w => exact .inl ⟨_, fun _ => rfl⟩
  | mul a b => exact .inl ⟨_, fun _ => rfl⟩
  | zero => exact .inl ⟨_, fun _ => rfl⟩
  | one => exact .inl ⟨_, fun _ => rfl⟩
  | max => exact .inl ⟨_, fun _ => rfl⟩
  | fromw w => exact .inl ⟨_, fun _ => rfl⟩
  | fromp a => exact .inl ⟨_, fun _ => rfl⟩

/-- The response a command has whatever the block held before (R35). -/
def commandResponse (c : Command) : Rsp := responseOf (execCommand c State.reset)
where
  /-- The response register an outcome leaves; the stops do not happen (R150). -/
  responseOf : Host.Outcome State Fault Refusal → Rsp
    | .next t => t.rsp
    | .fault _ => Rsp.reset
    | .refused _ => Rsp.reset

/-- A command writes its response into `RSP` and changes nothing else (R25, R35). -/
theorem execCommand_eq (c : Command) (s : State) :
    execCommand c s = .next { s with rsp := commandResponse c } := by
  rcases decodeCommand_cases c with ⟨row, -, -, -, h⟩ | ⟨-, h⟩
  · rcases exec_cases (row.make c) s with ⟨v, hv⟩ | ⟨a, b, hi, hs⟩
    · simp only [commandResponse, execCommand, h, hv]; rfl
    · simp only [commandResponse, execCommand, h, hi]; rfl
  · simp only [commandResponse, execCommand, h]; rfl

/-- The three things a step does (R47, R163, R170). -/
theorem step_cases (s : State) :
    (s.inputs = [] ∧ step s = .next s) ∨
    (∃ rest, s.inputs = .reset :: rest ∧ step s = .next { rsp := Rsp.reset, inputs := rest }) ∨
    (∃ c rest, s.inputs = .command c :: rest ∧
      step s = .next { rsp := commandResponse c, inputs := rest }) := by
  cases h : s.inputs with
  | nil => exact .inl ⟨rfl, by simp only [step, h]; rfl⟩
  | cons e rest =>
    cases e with
    | reset => exact .inr (.inl ⟨rest, rfl, by simp only [step, h]; rfl⟩)
    | command c =>
      refine .inr (.inr ⟨c, rest, rfl, ?_⟩)
      simp only [step, h, execCommand_eq]; rfl

theorem step_command (c : Command) (q : Rsp) (rest : List Input) :
    step ⟨q, .command c :: rest⟩ = .next ⟨commandResponse c, rest⟩ := by
  simp only [step, execCommand_eq]; rfl

theorem step_reset (q : Rsp) (rest : List Input) :
    step ⟨q, .reset :: rest⟩ = .next ⟨Rsp.reset, rest⟩ := rfl

/-- A run takes a command off the host's list. -/
theorem run_command (k : Nat) (c : Command) (q : Rsp) (rest : List Input) :
    Host.Core.run core (k + 1) (⟨q, .command c :: rest⟩ : State) =
      Host.Core.run core k (⟨commandResponse c, rest⟩ : State) := by
  have h : core.step (⟨q, .command c :: rest⟩ : State) = .next (⟨commandResponse c, rest⟩ : State) :=
    step_command c q rest
  simp only [Host.Core.run, h]

/-- A run takes a reset off the host's list. -/
theorem run_reset (k : Nat) (q : Rsp) (rest : List Input) :
    Host.Core.run core (k + 1) (⟨q, .reset :: rest⟩ : State) =
      Host.Core.run core k (⟨Rsp.reset, rest⟩ : State) := by
  have h : core.step (⟨q, .reset :: rest⟩ : State) = .next (⟨Rsp.reset, rest⟩ : State) := rfl
  simp only [Host.Core.run, h]

theorem commandResponse_valid (c : Command) : (commandResponse c).valid = true := by
  unfold commandResponse execCommand
  rcases decodeCommand_cases c with ⟨row, -, -, -, h⟩ | ⟨-, h⟩
  · rw [h]
    rcases exec_cases (row.make c) State.reset with ⟨v, hv⟩ | ⟨a, b, -, hs⟩
    · simp only [hv, commandResponse.responseOf, respond_valid]
    · simp only [hs, commandResponse.responseOf, respondOrder_valid]
  · rw [h]; rfl

/-- A response is illegal exactly after a reserved opcode (R28, R152). -/
theorem commandResponse_ill (c : Command) : (commandResponse c).ill = reservedOpcode c.op := by
  unfold commandResponse execCommand
  rcases decodeCommand_cases c with ⟨row, -, -, hr, h⟩ | ⟨hr, h⟩
  · rw [h, hr]
    rcases exec_cases (row.make c) State.reset with ⟨v, hv⟩ | ⟨a, b, -, hs⟩
    · simp only [hv, commandResponse.responseOf, respond_ill]
    · simp only [hs, commandResponse.responseOf, respondOrder_ill]
  · rw [h, hr]; rfl


end Sys2Proof.Machine
end

