-- ==== Sys2Proof/Laws/Ports.lean ====
section
/-! SUPPORT. What one tick and a sequence of ticks do (70_reset_and_hazards.md R170, R173 to R175). -/

namespace Sys2Proof.Machine

theorem responseTo_eq (c : Command) (p : Rsp) : responseTo c p = commandResponse c := by
  simp only [responseTo, step_command]

theorem ticks_append (latency : Opcode → Nat) (xs ys : List PortIn) (b : Block) :
    Block.ticks latency (xs ++ ys) b = Block.ticks latency ys (Block.ticks latency xs b) := by
  induction xs generalizing b with
  | nil => rfl
  | cons x xs ih => exact ih _

/-- A command in flight only counts down while ticks are left, whatever the ports carry. -/
theorem ticks_in_flight (latency : Opcode → Nat) (c : Command) (p : Rsp) (n : Nat)
    (later : List PortIn) (hl : later.length ≤ n) (hr : ∀ j ∈ later, j.rst = false) :
    Block.ticks latency later ⟨p, some ⟨c, n⟩⟩ = ⟨p, some ⟨c, n - later.length⟩⟩ := by
  induction later generalizing n with
  | nil => rfl
  | cons j js ih =>
    cases n with
    | zero => simp at hl
    | succ n =>
      have h : Block.tick latency j ⟨p, some ⟨c, n + 1⟩⟩ = ⟨p, some ⟨c, n⟩⟩ := by
        simp [Block.tick, hr j (by simp), Block.advance]
      rw [Block.ticks, h, ih n (by simpa using hl) (fun k hk => hr k (by simp [hk]))]
      simp

end Sys2Proof.Machine
end

