-- ==== Sys2Proof/Laws/Reset.lean ====
section
/-! SUPPORT. What the `rst` pin does under any RESET_KIND (00_scope.md R9, 70_reset_and_hazards.md R170). -/

namespace Sys2Proof.Machine

variable (kind : ResetKind)

@[simp] theorem resetHeld_active (held : Nat) : resetHeld kind held kind.activeLevel = held + 1 := by
  simp [resetHeld]

theorem resetHeld_inactive {level : Bool} (h : level ≠ kind.activeLevel) (held : Nat) :
    resetHeld kind held level = 0 := by
  simp [resetHeld, h]

@[simp] theorem resetApplies_zero : resetApplies kind 0 = false := rfl

/-- A reset of at least the minimum length is applied. -/
theorem resetApplies_of_le {held : Nat} (h0 : 0 < held) (h : kind.minTicks ≤ held) :
    resetApplies kind held = true := by
  simp [resetApplies, h0, h]

/-- For how many ticks the pin has been active after a sequence of ticks. -/
def heldAfter (held : Nat) (pins : List PinIn) : Nat :=
  pins.foldl (fun h pin => resetHeld kind h pin.rst) held

theorem samplePins_append (held : Nat) (xs ys : List PinIn) :
    samplePins kind held (xs ++ ys) =
      samplePins kind held xs ++ samplePins kind (heldAfter kind held xs) ys := by
  induction xs generalizing held with
  | nil => rfl
  | cons x xs ih => simp only [List.cons_append, samplePins, ih]; rfl

/-- Every active tick counts. -/
theorem heldAfter_active (held : Nat) (pins : List PinIn) (h : ∀ pin ∈ pins, pin.rst = kind.activeLevel) :
    heldAfter kind held pins = held + pins.length := by
  induction pins generalizing held with
  | nil => rfl
  | cons p ps ih =>
    have hp : heldAfter kind held (p :: ps) = heldAfter kind (held + 1) ps := by
      rw [heldAfter, List.foldl_cons, h p (by simp), resetHeld_active]; rfl
    rw [hp, ih _ (fun q hq => h q (by simp [hq])), List.length_cons]
    omega

end Sys2Proof.Machine
end

