-- ==== Sys2Proof/Laws/Shift.lean ====
section
/-! SUPPORT. SHIFT128 multiplies and divides by powers of two (41_shift.md R94). -/

namespace Sys2Proof.Machine

/-- The cross-boundary step to the left, for every remaining amount (R93). -/
theorem shlSmall_val (v : Value) (m : Nat) (h : m ≤ 63) :
    (shlSmall v m h).val = v.val * 2 ^ m % 2 ^ 128 := by
  by_cases h0 : m = 0
  · subst h0
    simp only [shlSmall, dite_true, pow_zero, Nat.mul_one]
    exact (Nat.mod_eq_of_lt v.val_lt).symm
  · obtain ⟨k, hk⟩ : ∃ k, k + m = 64 := ⟨64 - m, by omega⟩
    have hkm : 64 - m = k := by omega
    have hpow : (2 : Nat) ^ k * 2 ^ m = 2 ^ 64 := by rw [← pow_add, hk]
    have hlo := v.lo.isLt
    -- the part of `hi` that stays, as a multiple of `2ᵐ`
    have hshift : ∀ x : Nat, x * 2 ^ m % 2 ^ 64 = x % 2 ^ k * 2 ^ m := by
      intro x; rw [← hpow, Nat.mul_mod_mul_right]
    have hcarry : v.lo.toNat / 2 ^ k < 2 ^ m := by
      apply Nat.div_lt_of_lt_mul; rw [hpow]; exact hlo
    have hsplit : v.lo.toNat * 2 ^ m = v.lo.toNat % 2 ^ k * 2 ^ m + 2 ^ 64 * (v.lo.toNat / 2 ^ k) := by
      conv_lhs => rw [← Nat.mod_add_div v.lo.toNat (2 ^ k)]
      rw [← hpow]; ring
    have hhi : (or64 (shl64 v.hi m h) (shr64 v.lo (64 - m) (by omega))).toNat
        = v.hi.toNat % 2 ^ k * 2 ^ m + v.lo.toNat / 2 ^ k := by
      rw [or64_toNat_of_disjoint (q := v.hi.toNat % 2 ^ k) (k := m)
        (by rw [shl64_toNat, hshift]) (by rw [shr64_toNat, hkm]; exact hcarry),
        shl64_toNat, hshift, shr64_toNat, hkm]
    have hlo' : (shl64 v.lo m h).toNat = v.lo.toNat % 2 ^ k * 2 ^ m := by
      rw [shl64_toNat, hshift]
    simp only [shlSmall, h0, dite_false]
    show (shl64 v.lo m h).toNat
      + 2 ^ 64 * (or64 (shl64 v.hi m h) (shr64 v.lo (64 - m) (by omega))).toNat = _
    rw [hhi, hlo']
    have hvhi : v.hi.toNat * 2 ^ m = v.hi.toNat % 2 ^ k * 2 ^ m + 2 ^ 64 * (v.hi.toNat / 2 ^ k) := by
      conv_lhs => rw [← Nat.mod_add_div v.hi.toNat (2 ^ k)]
      rw [← hpow]; ring
    have hbound : v.hi.toNat % 2 ^ k * 2 ^ m < 2 ^ 64 := by
      rw [← hshift]; exact Nat.mod_lt _ (by decide)
    have hbound' : v.lo.toNat % 2 ^ k * 2 ^ m < 2 ^ 64 := by
      rw [← hshift]; exact Nat.mod_lt _ (by decide)
    have hsum : v.hi.toNat % 2 ^ k * 2 ^ m + v.lo.toNat / 2 ^ k < 2 ^ 64 := by
      rw [← hhi]; exact (or64 _ _).isLt
    have hval : v.val * 2 ^ m = v.lo.toNat * 2 ^ m + 2 ^ 64 * (v.hi.toNat * 2 ^ m) := by
      simp only [Value.val]; ring
    rw [hval, hsplit, hvhi]
    omega

/-- The cross-boundary step to the right (R93). -/
theorem shrSmall_val (v : Value) (m : Nat) (h : m ≤ 63) :
    (shrSmall v m h).val = v.val / 2 ^ m := by
  by_cases h0 : m = 0
  · subst h0; simp [shrSmall]
  · obtain ⟨k, hk⟩ : ∃ k, k + m = 64 := ⟨64 - m, by omega⟩
    have hkm : 64 - m = k := by omega
    have hpow : (2 : Nat) ^ m * 2 ^ k = 2 ^ 64 := by rw [← pow_add, Nat.add_comm, hk]
    have hpos : 0 < (2 : Nat) ^ m := Nat.two_pow_pos m
    have hlow : v.lo.toNat / 2 ^ m < 2 ^ k := by
      apply Nat.div_lt_of_lt_mul; rw [hpow]; exact v.lo.isLt
    have hshift : v.hi.toNat * 2 ^ k % 2 ^ 64 = v.hi.toNat % 2 ^ m * 2 ^ k := by
      rw [← hpow, Nat.mul_mod_mul_right]
    have hlo : (or64 (shr64 v.lo m h) (shl64 v.hi (64 - m) (by omega))).toNat
        = v.hi.toNat % 2 ^ m * 2 ^ k + v.lo.toNat / 2 ^ m := by
      rw [or64_comm, or64_toNat_of_disjoint (q := v.hi.toNat % 2 ^ m) (k := k)
        (by rw [shl64_toNat, hkm, hshift]) (by rw [shr64_toNat]; exact hlow),
        shl64_toNat, hkm, hshift, shr64_toNat]
    simp only [shrSmall, h0, dite_false]
    show (or64 (shr64 v.lo m h) (shl64 v.hi (64 - m) (by omega))).toNat
      + 2 ^ 64 * (shr64 v.hi m h).toNat = _
    rw [hlo, shr64_toNat]
    have hval : v.val = v.lo.toNat + 2 ^ m * (2 ^ k * v.hi.toNat) := by
      simp only [Value.val, ← hpow]; ring
    rw [hval, Nat.add_mul_div_left _ _ hpos]
    conv_rhs => rw [← Nat.mod_add_div v.hi.toNat (2 ^ m)]
    rw [← hpow]; ring

theorem shl128_val (a : Value) (n : Nat) : (shl128 a n).val = a.val * 2 ^ n % 2 ^ 128 := by
  unfold shl128
  split
  · next h0 => subst h0; simpa using (Nat.mod_eq_of_lt a.val_lt).symm
  · split
    · next h128 =>
      obtain ⟨j, rfl⟩ := Nat.exists_eq_add_of_le h128
      rw [pow_add, ← Nat.mul_assoc, Nat.mul_right_comm, Nat.mul_mod_left]; rfl
    · split
      · next h64 =>
        obtain ⟨j, rfl⟩ := Nat.exists_eq_add_of_le h64
        rw [shlSmall_val]
        have hj : 64 + j - 64 = j := by omega
        have h1 : (⟨0#64, a.lo⟩ : Value).val = 2 ^ 64 * a.lo.toNat := by simp [Value.val]
        have h2 : a.val * 2 ^ (64 + j)
            = 2 ^ 64 * a.lo.toNat * 2 ^ j + 2 ^ 128 * (a.hi.toNat * 2 ^ j) := by
          simp only [Value.val, pow_add]; ring
        rw [hj, h1, h2, Nat.add_mul_mod_self_left]
      · exact shlSmall_val a n (by omega)

theorem shr128_val (a : Value) (n : Nat) : (shr128 a n).val = a.val / 2 ^ n := by
  unfold shr128
  split
  · next h0 => subst h0; simp
  · split
    · next h128 =>
      refine (Nat.div_eq_of_lt (Nat.lt_of_lt_of_le a.val_lt ?_)).symm
      exact Nat.pow_le_pow_right (by decide) h128
    · split
      · next h64 =>
        obtain ⟨j, rfl⟩ := Nat.exists_eq_add_of_le h64
        rw [shrSmall_val]
        have hj : 64 + j - 64 = j := by omega
        have h1 : (⟨a.hi, 0#64⟩ : Value).val = a.hi.toNat := by simp [Value.val]
        have h2 : a.val / 2 ^ 64 = a.hi.toNat := by
          have := a.lo.isLt
          simp only [Value.val]; omega
        rw [hj, h1, pow_add, ← Nat.div_div_eq_div_mul, h2]
      · exact shrSmall_val a n (by omega)

end Sys2Proof.Machine
end

