-- ==== Sys2Proof/Laws/Text.lean ====
section
/-! SUPPORT. Hexadecimal texts: their length, their parts, and reading one back (30_encoding.md R56, R58). -/

namespace Sys2Proof

theorem hexText_length (d v : Nat) : (hexText d v).length = d := by
  induction d generalizing v with
  | zero => rfl
  | succ d ih => simp [hexText, ih]

/-- A number made of two parts is written as the two parts one after the other. -/
theorem hexText_append (d e x y : Nat) (hy : y < 16 ^ e) :
    hexText (d + e) (x * 16 ^ e + y) = hexText d x ++ hexText e y := by
  induction e generalizing y with
  | zero =>
    simp only [pow_zero] at hy
    obtain rfl : y = 0 := by omega
    simp [hexText]
  | succ e ih =>
    have h1 : (x * 16 ^ (e + 1) + y) / 16 = x * 16 ^ e + y / 16 := by
      rw [pow_succ, ← Nat.mul_assoc]; omega
    have h2 : hexDigit (x * 16 ^ (e + 1) + y) = hexDigit y := by
      unfold hexDigit; congr 1; rw [pow_succ, ← Nat.mul_assoc]; omega
    rw [← Nat.add_assoc, hexText, hexText, h1, h2, ih (y / 16) (by rw [pow_succ] at hy; omega),
      List.append_assoc]

theorem hexValue_hexDigit (v : Nat) : hexValue (hexDigit v) = some (v % 16) := by
  have h : ∀ n < 16, hexValue (hexChars.getD n '0') = some n := by decide
  exact h _ (Nat.mod_lt _ (by decide))

theorem readDigits_append (acc : Nat) (xs ys : List Char) :
    readDigits 16 hexValue acc (xs ++ ys) =
      (readDigits 16 hexValue acc xs).bind fun a => readDigits 16 hexValue a ys := by
  induction xs generalizing acc with
  | nil => rfl
  | cons x xs ih =>
    simp only [List.cons_append, readDigits]
    cases hexValue x <;> simp [ih]

/-- Reading back what was written gives the number, as far as the digits go. -/
theorem readDigits_hexText (d v acc : Nat) :
    readDigits 16 hexValue acc (hexText d v) = some (acc * 16 ^ d + v % 16 ^ d) := by
  induction d generalizing v acc with
  | zero => simp [hexText, readDigits, Nat.mod_one]
  | succ d ih =>
    have h : v % 16 ^ (d + 1) = v / 16 % 16 ^ d * 16 + v % 16 := by
      rw [pow_succ, Nat.mul_comm (16 ^ d) 16, Nat.mod_mul]; ring
    rw [hexText, readDigits_append, ih]
    simp only [Option.bind_some, readDigits, hexValue_hexDigit]
    rw [h, pow_succ]
    congr 1
    ring

end Sys2Proof
end

