-- ==== Sys2Proof/Tests/Slice0.lean ====
section
/-! SUPPORT. Tests on fixed values, and a named witness for the hypotheses of every statement that has some.
Expected results are the spec's: part and row of 95_test_vectors.md, or written out from 30_encoding.md R56. -/

open Sys2Proof Sys2Proof.Machine

namespace Sys2Proof.Tests

set_option exponentiation.threshold 300

/-- A response register that no command of these tests leaves, to start from. -/
def old : Rsp := { valid := true, ill := true, gt := true, eq := true, lt := true, r := ⟨7#64, 9#64⟩ }

/-- The valid bit and the response record after one step on a command record. -/
def answerTo (r : CmdRecord) : Option (Bool × RspRecord) :=
  match step ⟨old, [.command (Command.ofRecord r)]⟩ with
  | .next t => some (t.rsp.valid, t.rsp.record)
  | .fault _ | .refused _ => none

/-! ## Decoding: the fields of R56 written out, every word different, for each row of R60 -/

theorem test_decode_mul64 : decode 0x104444444444444444333333333333333322222222222222221111111111111111#264 =
    .ok (.mul64 0x1111111111111111#64 0x3333333333333333#64) := by decide
theorem test_decode_shl : decode 0x204444444444444444333333333333333322222222222222221111111111111111#264 =
    .ok (.shl ⟨0x1111111111111111#64, 0x2222222222222222#64⟩ 0x3333333333333333#64) := by decide
theorem test_decode_shr : decode 0x214444444444444444333333333333333322222222222222221111111111111111#264 =
    .ok (.shr ⟨0x1111111111111111#64, 0x2222222222222222#64⟩ 0x3333333333333333#64) := by decide
theorem test_decode_not : decode 0x304444444444444444333333333333333322222222222222221111111111111111#264 =
    .ok (.not ⟨0x1111111111111111#64, 0x2222222222222222#64⟩) := by decide
theorem test_decode_and : decode 0x314444444444444444333333333333333322222222222222221111111111111111#264 =
    .ok (.and ⟨0x1111111111111111#64, 0x2222222222222222#64⟩
      ⟨0x3333333333333333#64, 0x4444444444444444#64⟩) := by decide
theorem test_decode_or : decode 0x324444444444444444333333333333333322222222222222221111111111111111#264 =
    .ok (.or ⟨0x1111111111111111#64, 0x2222222222222222#64⟩
      ⟨0x3333333333333333#64, 0x4444444444444444#64⟩) := by decide
theorem test_decode_xor : decode 0x334444444444444444333333333333333322222222222222221111111111111111#264 =
    .ok (.xor ⟨0x1111111111111111#64, 0x2222222222222222#64⟩
      ⟨0x3333333333333333#64, 0x4444444444444444#64⟩) := by decide
theorem test_decode_cmp : decode 0x404444444444444444333333333333333322222222222222221111111111111111#264 =
    .ok (.cmp ⟨0x1111111111111111#64, 0x2222222222222222#64⟩
      ⟨0x3333333333333333#64, 0x4444444444444444#64⟩) := by decide
theorem test_decode_add : decode 0x504444444444444444333333333333333322222222222222221111111111111111#264 =
    .ok (.add ⟨0x1111111111111111#64, 0x2222222222222222#64⟩
      ⟨0x3333333333333333#64, 0x4444444444444444#64⟩) := by decide
theorem test_decode_addw : decode 0x514444444444444444333333333333333322222222222222221111111111111111#264 =
    .ok (.addw ⟨0x1111111111111111#64, 0x2222222222222222#64⟩ 0x3333333333333333#64) := by decide
theorem test_decode_mulw : decode 0x604444444444444444333333333333333322222222222222221111111111111111#264 =
    .ok (.mulw ⟨0x1111111111111111#64, 0x2222222222222222#64⟩ 0x3333333333333333#64) := by decide
theorem test_decode_mul : decode 0x614444444444444444333333333333333322222222222222221111111111111111#264 =
    .ok (.mul ⟨0x1111111111111111#64, 0x2222222222222222#64⟩
      ⟨0x3333333333333333#64, 0x4444444444444444#64⟩) := by decide
theorem test_decode_zero : decode 0x704444444444444444333333333333333322222222222222221111111111111111#264 =
    .ok (.zero) := by decide
theorem test_decode_one : decode 0x714444444444444444333333333333333322222222222222221111111111111111#264 =
    .ok (.one) := by decide
theorem test_decode_max : decode 0x724444444444444444333333333333333322222222222222221111111111111111#264 =
    .ok (.max) := by decide
theorem test_decode_fromw : decode 0x734444444444444444333333333333333322222222222222221111111111111111#264 =
    .ok (.fromw 0x1111111111111111#64) := by decide
theorem test_decode_fromp : decode 0x744444444444444444333333333333333322222222222222221111111111111111#264 =
    .ok (.fromp ⟨0x1111111111111111#64, 0x2222222222222222#64⟩) := by decide
theorem test_decode_reserved :
    decode 0x754444444444444444333333333333333322222222222222221111111111111111#264 =
    .error (.reservedOpcode 0x75#8) := by decide
theorem test_table_word_opcode : decodeTableWord 8 0x21 = some (.shr ⟨0#64, 0#64⟩ 0#64) := by decide
theorem test_table_word_record : decodeTableWord 264
    0x73000000000000000000000000000000000000000000000000DEADBEEFCAFEF00D =
    some (.fromw 0xDEADBEEFCAFEF00D#64) := by decide
theorem test_table_word_reserved : decodeTableWord 8 0x22 = none := by decide
theorem test_encode_addw : encode (.addw ⟨0#64, 16#64⟩ 42#64) =
    0x510000000000000000000000000000002A00000000000000100000000000000000#264 := by decide

/-! ## One step on a command of 95_test_vectors.md -/

/-- S4. -/
theorem test_mul64_all_limb_carries : answerTo
    0x100000000000000000FFFFFFFFFFFFFFFF0000000000000000FFFFFFFFFFFFFFFF#264 =
    some (true, 0x0FFFFFFFFFFFFFFFE0000000000000001#132) := by decide
/-- V-MUL64 23. -/
theorem test_mul64_largest_x_ignored_words : answerTo
    0x101111111111111111FEDCBA9876543210FFFFFFFFFFFFFFFF0123456789ABCDEF#264 =
    some (true, 0x00121FA00AD77D7422236D88FE5618CF0#132) := by decide
/-- V-SHL 5. -/
theorem test_shl_crosses_word_boundary : answerTo
    0x200000000000000000000000000000003FC0000000000000038000000000000001#264 =
    some (true, 0x0C0000000000000008000000000000000#132) := by decide
/-- V-SHL 16. -/
theorem test_shl_amount_is_not_masked : answerTo
    0x2000000000000000000000000100000000FFFFFFFFFFFFFFFFFFFFFFFFFFFFFFFF#264 =
    some (true, 0x000000000000000000000000000000000#132) := by decide
/-- V-SHR 2. -/
theorem test_shr_zero_enters_at_the_top : answerTo
    0x2100000000000000000000000000000001C0000000000000038000000000000001#264 =
    some (true, 0x06000000000000001C000000000000000#132) := by decide
/-- V-SHR 8. -/
theorem test_shr_by_65 : answerTo
    0x2100000000000000000000000000000041FEDCBA98765432100123456789ABCDEF#264 =
    some (true, 0x000000000000000007F6E5D4C3B2A1908#132) := by decide
/-- V-LOGIC 6. -/
theorem test_not_complements_each_word : answerTo
    0x30FFFFFFFFFFFFFFFFFFFFFFFFFFFFFFFF0123456789ABCDEFDEADBEEFCAFEF00D#264 =
    some (true, 0x0FEDCBA98765432102152411035010FF2#132) := by decide
/-- V-LOGIC 7. -/
theorem test_and_general : answerTo
    0x313333333333333333FFFF0000FFFF00000F0F0F0F0F0F0F0FFF00FF00FF00FF00#264 =
    some (true, 0x00303030303030303FF000000FF000000#132) := by decide
/-- V-LOGIC 8. -/
theorem test_or_general : answerTo
    0x323333333333333333FFFF0000FFFF00000F0F0F0F0F0F0F0FFF00FF00FF00FF00#264 =
    some (true, 0x03F3F3F3F3F3F3F3FFFFFFF00FFFFFF00#132) := by decide
/-- V-LOGIC 9. -/
theorem test_xor_general : answerTo
    0x333333333333333333FFFF0000FFFF00000F0F0F0F0F0F0F0FFF00FF00FF00FF00#264 =
    some (true, 0x03C3C3C3C3C3C3C3C00FFFF0000FFFF00#132) := by decide
/-- S15. -/
theorem test_cmp_high_word_first : answerTo
    0x400000000000000001000000000000000000000000000000000000000000000005#264 =
    some (true, 0x100000000000000000000000000000000#132) := by decide
/-- S15. -/
theorem test_cmp_exchanged : answerTo
    0x400000000000000000000000000000000500000000000000010000000000000000#264 =
    some (true, 0x400000000000000000000000000000000#132) := by decide
/-- S6. -/
theorem test_add_max_one_wraps : answerTo
    0x5000000000000000000000000000000001FFFFFFFFFFFFFFFFFFFFFFFFFFFFFFFF#264 =
    some (true, 0x000000000000000000000000000000000#132) := by decide
/-- V-ADD 18. -/
theorem test_add_both_halves : answerTo
    0x503333333333333333FFFF0000FFFF00000F0F0F0F0F0F0F0FFF00FF00FF00FF00#264 =
    some (true, 0x04242424242424243FEFFFF01FEFFFF00#132) := by decide
/-- V-ADDW 4. -/
theorem test_addw_carries : answerTo
    0x510000000000000000FFFFFFFFFFFFFFFF0000000000000005FFFFFFFFFFFFFFFF#264 =
    some (true, 0x00000000000000006FFFFFFFFFFFFFFFE#132) := by decide
/-- V-ADDW 11. -/
theorem test_addw_ignores_b_hi : answerTo
    0x51FFFFFFFFFFFFFFFF00000000000000010000000000000000FFFFFFFFFFFFFFFF#264 =
    some (true, 0x000000000000000010000000000000000#132) := by decide
/-- V-MULW 5. -/
theorem test_mulw_discards_high_product : answerTo
    0x600000000000000000FFFFFFFFFFFFFFFFFFFFFFFFFFFFFFFFFFFFFFFFFFFFFFFF#264 =
    some (true, 0x0FFFFFFFFFFFFFFFF0000000000000001#132) := by decide
/-- V-MUL 13. -/
theorem test_mul_general : answerTo
    0x610BADC0FFEE0DDF00DEADBEEFCAFEF00DFEDCBA98765432100123456789ABCDEF#264 =
    some (true, 0x0EA2581B17B4E5C2A25F76468F7EB8523#132) := by decide
/-- V-MUL 6. -/
theorem test_mul_high_term_absent : answerTo
    0x610000000000000001000000000000000000000000000000010000000000000000#264 =
    some (true, 0x000000000000000000000000000000000#132) := by decide
/-- V-CONS 4. -/
theorem test_zero : answerTo
    0x704444444444444444333333333333333322222222222222221111111111111111#264 =
    some (true, 0x000000000000000000000000000000000#132) := by decide
/-- V-CONS 5. -/
theorem test_one : answerTo
    0x714444444444444444333333333333333322222222222222221111111111111111#264 =
    some (true, 0x000000000000000000000000000000001#132) := by decide
/-- V-CONS 6. -/
theorem test_max : answerTo
    0x724444444444444444333333333333333322222222222222221111111111111111#264 =
    some (true, 0x0FFFFFFFFFFFFFFFFFFFFFFFFFFFFFFFF#132) := by decide
/-- V-CONS 10. -/
theorem test_fromw_zero_extends : answerTo
    0x73444444444444444433333333333333332222222222222222DEADBEEFCAFEF00D#264 =
    some (true, 0x00000000000000000DEADBEEFCAFEF00D#132) := by decide
/-- V-CONS 12. -/
theorem test_fromp_low_word_first : answerTo
    0x74000000000000000000000000000000000000000000000010000000000000002A#264 =
    some (true, 0x00000000000000010000000000000002A#132) := by decide
/-- V-ILL 1. -/
theorem test_reserved_all_zero_command : answerTo
    0x000000000000000000000000000000000000000000000000000000000000000000#264 =
    some (true, 0x800000000000000000000000000000000#132) := by decide
/-- V-ILL 11. -/
theorem test_reserved_next_after_cmp : answerTo
    0x414444444444444444333333333333333322222222222222221111111111111111#264 =
    some (true, 0x800000000000000000000000000000000#132) := by decide

/-! ## Reset, idling, the texts, the limb algorithm -/

/-- 10_state.md R33. -/
theorem test_reset_record : (State.reset.rsp.valid, State.reset.rsp.record) = (false, 0#132) := by decide
theorem test_reset_event : step ⟨old, [.reset, .reset]⟩ = .next ⟨Rsp.reset, [.reset]⟩ := rfl
theorem test_idle : step ⟨old, []⟩ = .next ⟨old, []⟩ := rfl
/-- The table's word 0x71 as the first instruction after reset. -/
theorem test_fetch_word : step (State.reset.withFetchWord 8 0x71) =
    .next ⟨Rsp.answer ⟨1#64, 0#64⟩, []⟩ := rfl
/-- S5, the limb trace that the spec writes out. -/
theorem test_limb_trace_s5 : limbs 0x100000001#64 0x100000001#64 =
    ⟨1#64, 1#64, 1#64, 1#64, 2#64, 1#64, 0x200000001#64, 1#64⟩ := by decide
/-- V-MUL64 7, the largest `x`: two carries out of the middle column. -/
theorem test_limb_trace_row7 : (limbs 0x1FFFFFFFF#64 0x1FFFFFFFF#64).x = 0x2FFFFFFFC#64 := by decide
theorem test_strategies_row20 :
    [MulStrategy.primitive, .wide, .limb].map
      (fun st => mul64 st 0xDEADBEEFCAFEF00D#64 0xDEADBEEFCAFEF00D#64) =
      List.replicate 3 ⟨0x12E0D4FBBEE460A9#64, 0xC1B1CD13829356D6#64⟩ := by decide
theorem test_selection_policy : (Platform.select ⟨true, true⟩, Platform.select ⟨false, true⟩,
    Platform.select ⟨false, false⟩) = (.primitive, .wide, .limb) := by decide
/-- S6, in the assembler's text. -/
theorem test_assemble_text : assembleText "ADD MAX, ONE ; wraps".toList =
    some (Command.ofRecord 0x5000000000000000000000000000000001FFFFFFFFFFFFFFFFFFFFFFFFFFFFFFFF#264) := by
  decide
/-- S15, with a pair written low word first. -/
theorem test_assemble_pair : assembleText "CMP (5, 0), (0, 0x1)".toList =
    some (Command.ofRecord 0x400000000000000001000000000000000000000000000000000000000000000005#264) := by
  decide
theorem test_pseudo_mov : assemble ⟨"MOV", [.max]⟩ = assemble ⟨"FROMP", [.max]⟩ := by decide
theorem test_response_text : (Rsp.answer ⟨0x200000001#64, 1#64⟩).text =
    "000000000000000010000000200000001".toList := by decide

/-! ## WellFormed: a term for each check, which the check refuses -/

theorem test_wf_accepts : (Line.wellFormed ⟨"SHL", [.one, .word 64]⟩) = true := by decide
theorem test_wf_unknown_mnemonic : (Line.wellFormed ⟨"SUB", [.one, .one]⟩) = false := by decide
theorem test_wf_word_too_large : (Line.wellFormed ⟨"FROMW", [.word (2 ^ 64)]⟩) = false := by decide
theorem test_wf_largest_word : (Line.wellFormed ⟨"FROMW", [.word (2 ^ 64 - 1)]⟩) = true := by decide
theorem test_wf_pair_for_word : (Line.wellFormed ⟨"FROMW", [.pair 1 0]⟩) = false := by decide
theorem test_wf_name_for_word : (Line.wellFormed ⟨"MUL64", [.word 1, .one]⟩) = false := by decide
theorem test_wf_pair_lo_too_large : (Line.wellFormed ⟨"NOT", [.pair (2 ^ 64) 0]⟩) = false := by decide
theorem test_wf_pair_hi_too_large : (Line.wellFormed ⟨"NOT", [.pair 0 (2 ^ 64)]⟩) = false := by decide
theorem test_wf_value_word_too_large : (Line.wellFormed ⟨"NOT", [.word (2 ^ 64)]⟩) = false := by decide
theorem test_wf_operand_missing : (Line.wellFormed ⟨"ADD", [.one]⟩) = false := by decide
theorem test_wf_operand_too_many : (Line.wellFormed ⟨"ZERO", [.one]⟩) = false := by decide

/-! ## Witnesses: for each statement with hypotheses, what meets them all together -/

/-- A tick that transfers a command. -/
def cmdTick (c : Command) : PortIn := { rst := false, cmdValid := true, cmd := c }
/-- A tick on which nothing happens. -/
def quietTick : PortIn := { rst := false, cmdValid := false, cmd := encodeCommand .zero }
/-- A tick on which reset is applied. -/
def rstTick : PortIn := { rst := true, cmdValid := true, cmd := encodeCommand .one }
/-- ONE as the host transfers it. -/
def cmdOne : Command := encodeCommand .one
/-- The block, with an old response and nothing in flight. -/
def freeBlock : Block := { rsp := old, busy := none }

/-- ResetAppliesAtAnyTime: reset on a block with a command in flight, then quiet ticks. -/
theorem witness_reset_in_flight : rstTick.rst = true ∧ (∀ j ∈ [quietTick, quietTick], j.cmdValid = false) ∧
    Block.ticks (fun _ => 3) [rstTick, quietTick, quietTick] ⟨old, some ⟨cmdOne, 1⟩⟩ = Block.reset := by
  decide
/-- RspHoldsBetweenCommands: `RSP` changes by reset. -/
theorem witness_rsp_changes_by_reset : (freeBlock.tick (fun _ => 1) rstTick).rsp ≠ freeBlock.rsp ∧
    rstTick.rst = true := by decide
/-- RspHoldsBetweenCommands: `RSP` changes as the command in flight completes. -/
theorem witness_rsp_changes_by_completion :
    (Block.tick (fun _ => 1) quietTick ⟨old, some ⟨cmdOne, 0⟩⟩).rsp ≠ old := by decide
/-- RspHoldsBetweenCommands: `RSP` changes with a transfer of latency 0. -/
theorem witness_rsp_changes_by_transfer :
    (freeBlock.tick (fun _ => 0) (cmdTick cmdOne)).rsp ≠ old ∧
      freeBlock.transfers (cmdTick cmdOne) = true := by decide
/-- StepKeepsInvariant: a state that no run from reset has to reach. -/
theorem witness_invariant_step : ∃ s t : State, s.rsp.gt = true ∧ s.Inv ∧ step s = .next t :=
  ⟨⟨{ valid := true, ill := false, gt := true, eq := false, lt := false, r := ⟨5#64, 6#64⟩ },
    [.command cmdOne]⟩, _, rfl, ⟨by decide, by decide, by decide⟩, rfl⟩
/-- StepRunsDecodedInstruction: both halves. -/
theorem witness_decoded_command : decode cmdOne.toRecord = .ok .one := by decide
theorem witness_table_word : decodeTableWord 8 0x61 = some (.mul ⟨0#64, 0#64⟩ ⟨0#64, 0#64⟩) := by decide
/-- FlagsAreWrittenAsTabled: CMP, another defined opcode, a reserved one. -/
theorem witness_flags_opcodes : (encodeCommand (.cmp Value.one Value.zero)).op = 0x40#8 ∧
    cmdOne.op ≠ 0x40#8 ∧ reservedOpcode 0x41#8 = true ∧ (0x41#8 : Opcode) ≠ 0x40#8 := by decide
/-- EncodeDecodeIsCanonical: a record with an ignored word that is not zero. -/
theorem witness_not_canonical :
    decode 0x714444444444444444333333333333333322222222222222221111111111111111#264 = .ok .one ∧
    encode .one ≠ 0x714444444444444444333333333333333322222222222222221111111111111111#264 := by decide
/-- DecodingLooksAtTheOpcodeAlone: an opcode of each kind. -/
theorem witness_opcode_kinds : (0x10#8 : Opcode) ∈ opcodeTable.map (·.op) ∧
    (0x0F#8 : Opcode) ∉ opcodeTable.map (·.op) := by decide
/-- ReservedOpcodesAreReported: the first and last opcode of each range, and the defined ones beside. -/
theorem witness_reserved_bounds :
    (∀ op ∈ [0x00#8, 0x0F#8, 0x11#8, 0x1F#8, 0x22#8, 0x2F#8, 0x34#8, 0x3F#8, 0x41#8, 0x4F#8, 0x52#8,
      0x5F#8, 0x62#8, 0x6F#8, 0x75#8, 0xFF#8], reservedOpcode op = true) ∧
    (∀ op ∈ [0x10#8, 0x20#8, 0x21#8, 0x30#8, 0x33#8, 0x40#8, 0x50#8, 0x51#8, 0x60#8, 0x61#8, 0x70#8,
      0x74#8], reservedOpcode op = false) := by decide
/-- IgnoredWordsHaveNoEffect: two different commands that agree on what `ww` reads, and a line. -/
theorem witness_ignored_words :
    let c : Command := ⟨0x10#8, 3#64, 0#64, 5#64, 0#64⟩
    let c' : Command := ⟨0x10#8, 3#64, 0xFFFFFFFFFFFFFFFF#64, 5#64, 0x1111111111111111#64⟩
    c ≠ c' ∧ c.op ∈ opcodeTable.map (·.op) ∧
      c'.zeroIgnored .wordWord = c.zeroIgnored .wordWord := by decide
theorem witness_assembled_line : (assemble ⟨"MUL64", [.word 3, .word 5]⟩).isSome = true := by decide
/-- AssemblerPlacesOperands: a row of every form. -/
theorem witness_row_forms : ∀ f ∈ [Form.none, .word, .value, .wordWord, .valueWord, .valueValue],
    f ∈ opcodeTable.map (·.form) := by decide
/-- AssemblerPlacesOperands: every way to write a value, and a bare word that is no pair. -/
theorem witness_written_values : Operand.StandsFor (.pair 5 7) ⟨5#64, 7#64⟩ ∧
    Operand.StandsFor (.word (2 ^ 64 - 1)) ⟨0xFFFFFFFFFFFFFFFF#64, 0#64⟩ ∧
    Operand.StandsFor .zero ⟨0#64, 0#64⟩ ∧ Operand.StandsFor .one ⟨1#64, 0#64⟩ ∧
    Operand.StandsFor .max ⟨0xFFFFFFFFFFFFFFFF#64, 0xFFFFFFFFFFFFFFFF#64⟩ :=
  ⟨.pair ⟨5#64, 7#64⟩, .word 0xFFFFFFFFFFFFFFFF#64, .zero, .one, .max⟩
/-- PseudoComparisonsReadTheOrder: a pseudo-instruction and its expansion that both assemble. -/
theorem witness_pseudo_line : assemble ⟨"GE", [.one, .word 5]⟩ =
    some ⟨0x40#8, 1#64, 0#64, 5#64, 0#64⟩ := by decide
/-- ValIsABijection, OrderIsLexicographicAndTotal: three values in a chain, the high word first. -/
theorem witness_ordered_chain : valueLt ⟨5#64, 0#64⟩ ⟨0#64, 1#64⟩ = true ∧
    valueLt ⟨0#64, 1#64⟩ ⟨0xFFFFFFFFFFFFFFFF#64, 1#64⟩ = true := by decide
/-- MultiplierLaws: the least and the greatest power of two. -/
theorem witness_powers_of_two : (1 ≤ 1 ∧ 1 ≤ 63) ∧ (1 ≤ 63 ∧ 63 ≤ 63) ∧
    mul64 .limb 3#64 (BitVec.ofNat 64 (2 ^ 63)) = ⟨0x8000000000000000#64, 1#64⟩ := by decide
/-- CarryTestIsCarryOut: high words whose sum wraps, the other addition then does not. -/
theorem witness_high_words_wrap : 2 ^ 64 ≤ (0xFFFFFFFFFFFFFFFF#64).toNat + (0xFFFFFFFFFFFFFFFF#64).toNat ∧
    (add64 0xFFFFFFFFFFFFFFFF#64 0xFFFFFFFFFFFFFFFF#64).toNat = 2 ^ 64 - 2 := by decide
/-- ShiftRoundTripLoss: the amounts where its cases meet, and S11 row 2. -/
theorem witness_shift_amounts : (128#64).toNat ≤ 128 ∧ ¬ (129#64).toNat ≤ 128 ∧
    shr128 (shl128 ⟨0x0123456789ABCDEF#64, 0x00000000FEDCBA98#64⟩ 33) 33 =
      ⟨0x0123456789ABCDEF#64, 0x000000007EDCBA98#64⟩ := by decide
/-- PortsRefineTheStep: a sequence after which nothing is in flight. -/
theorem witness_ports_settle :
    (Block.ticks (fun _ => 1) [cmdTick cmdOne, quietTick] freeBlock).busy = none ∧
    Block.events (fun _ => 1) [cmdTick cmdOne, quietTick] freeBlock = [.command cmdOne] := by decide
/-- TransferredCommandCompletes: latency 0, and latency 2 with another command offered meanwhile. -/
theorem witness_transfer_latency_zero : freeBlock.transfers (cmdTick cmdOne) = true ∧
    Block.ticks (fun _ => 0) [cmdTick cmdOne] freeBlock = ⟨Rsp.answer Value.one, none⟩ := by decide
theorem witness_transfer_latency_two :
    (∀ j ∈ [cmdTick (encodeCommand .max), quietTick], j.rst = false) ∧
    Block.ticks (fun _ => 2) [cmdTick cmdOne, cmdTick (encodeCommand .max), quietTick] freeBlock =
      ⟨Rsp.answer Value.one, none⟩ := by decide

/-- A script: `ONE -> $f`, `CMP $f, $k`, `loop: IF NOT lt GOTO loop`, `HALT`. -/
def script : List ScriptLine := [
  ⟨none, .command "ONE" [] (some "f")⟩, ⟨none, .command "CMP" [.var "f", .lo "k"] none⟩,
  ⟨some "loop", .ifGoto true .lt "loop"⟩, ⟨none, .halt⟩]

/-- A script's state at a line, with `$f` = ONE. -/
def scriptAt (line : Nat) : ScriptState :=
  { block := ⟨old, []⟩, vars := [("f", Value.one)], line := line, halted := false }

/-- HostStatementsKeepTheBlock: a branch taken to its label, one not taken, a GOTO, and HALT. -/
theorem witness_script_branch : (∃ t, Stmt.run script (scriptAt 3) (.ifGoto false .lt "loop") = .ok t ∧
    t.line = 2) ∧ (∃ t, Stmt.run script (scriptAt 2) (.ifGoto true .lt "loop") = .ok t ∧ t.line = 3) ∧
    (∃ t, Stmt.run script (scriptAt 3) (.goto "loop") = .ok t ∧ t.line = 2) ∧
    (∃ t, Stmt.run script (scriptAt 3) .halt = .ok t ∧ t.halted = true) :=
  ⟨⟨_, rfl, rfl⟩, ⟨_, rfl, rfl⟩, ⟨_, rfl, rfl⟩, ⟨_, rfl, rfl⟩⟩
/-- ScriptCommandIsOneStep: `ADDW $f, 1 -> $k`. -/
theorem witness_script_command :
    (∃ ops c, resolveArgs (scriptAt 0) [.var "f", .lit (.word 1)] = .ok ops ∧
      assemble ⟨"ADDW", ops⟩ = some c) ∧
    ∃ t, Stmt.run script (scriptAt 0) (.command "ADDW" [.var "f", .lit (.word 1)] (some "k")) = .ok t ∧
      t.get "k" = .ok ⟨2#64, 0#64⟩ :=
  ⟨⟨_, _, rfl, rfl⟩, ⟨_, rfl, rfl⟩⟩
/-- ScriptCommandIsOneStep: `CMP $f, ONE` with no destination. -/
theorem witness_script_no_destination :
    (∃ ops c, resolveArgs (scriptAt 0) [.var "f", .lit .one] = .ok ops ∧ assemble ⟨"CMP", ops⟩ = some c) ∧
    ∃ t, Stmt.run script (scriptAt 0) (.command "CMP" [.var "f", .lit .one] none) = .ok t ∧
      t.vars = (scriptAt 0).vars ∧ t.block.rsp.eq = true :=
  ⟨⟨_, _, rfl, rfl⟩, ⟨_, rfl, rfl, rfl⟩⟩
/-- ScriptCommandIsOneStep: a raw command with a reserved opcode, into a variable that held another value. -/
theorem witness_script_raw :
    ∃ t, Stmt.run script (scriptAt 0) (.raw ⟨0#8, 0#64, 0#64, 0#64, 0#64⟩ (some "f")) = .ok t ∧
      t.block.rsp.ill = true ∧ t.get "f" = .ok Value.zero :=
  ⟨_, rfl, rfl, rfl⟩
/-- UnassignedVariableStopsScript: the second line of `script`, whose `$k` holds nothing. -/
theorem witness_unassigned_variable : (∀ p ∈ (scriptAt 1).vars, p.1 ≠ "k") ∧
    (∃ xs, resolveArgs (scriptAt 1) [.var "f"] = .ok xs) ∧
    scriptStep script (scriptAt 1) = .error (.unassigned "k") :=
  ⟨by decide, ⟨_, rfl⟩, rfl⟩

/-- A kind of reset: asynchronous, active at level 0, at least two ticks. -/
def lowActive : ResetKind := { timing := .asynchronous, activeLevel := false, minTicks := 2, shortCounts := false }
/-- The pins of a tick that carries nothing but a level of `rst`. -/
def rstPin (level : Bool) : PinIn := { rst := level, cmdValid := false, cmd := cmdOne }

/-- ResetKindChangesNoEffect: a pulse of the minimum length, one tick after another level. -/
theorem witness_reset_pulse : lowActive.minTicks ≤ [rstPin false, rstPin false].length ∧
    (∀ pin ∈ [rstPin false, rstPin false], pin.rst = lowActive.activeLevel) ∧
    (samplePins lowActive 0 [rstPin true, rstPin false, rstPin false]).map (·.rst) = [false, false, true] := by
  decide
/-- ResetKindChangesNoEffect: an inactive pin, and both timings in a tick in which reset is applied. -/
theorem witness_reset_inactive : (∀ pin ∈ [rstPin true, rstPin true], pin.rst ≠ lowActive.activeLevel) ∧
    (freeBlock.outDuring .asynchronous rstTick).rspValid = false ∧
    (freeBlock.outDuring .synchronous rstTick).rspValid = true := by decide

end Sys2Proof.Tests
end

section
/-! PROOFS. 10_state.md: the response register after reset and after a command (R33, R35). -/

namespace Sys2Proof.Machine

/-- Any two strategies of the multiplier return the same pair, because both stand for the exact product (R81, R85). -/
theorem mul64_eq_mul64 (st st' : MulStrategy) (a b : Word) : mul64 st a b = mul64 st' a b :=
  Value.val_inj ((mul64_val st a b).trans (mul64_val st' a b).symm)

/-- Settles O8: the response is `commandResponse c`, chosen before the old `RSP` and the pending events. -/
theorem responseDependsOnCommandAlone : Obligations.ResponseDependsOnCommandAlone := by
  unfold Obligations.ResponseDependsOnCommandAlone
  constructor
  · intro c
    exact ⟨commandResponse c, step_command c⟩
  · intro st a b
    exact mul64_eq_mul64 st Config.mulStrategy a b

/-- Settles O1: each field is read off the literal `Rsp.reset`. -/
theorem resetLeavesEveryFieldZero : Obligations.ResetLeavesEveryFieldZero := by
  unfold Obligations.ResetLeavesEveryFieldZero
  rw [reset_rsp]
  exact ⟨rfl, rfl, rfl, rfl, rfl, rfl, rfl⟩

end Sys2Proof.Machine
end

section
/-! PROOFS. 20_memory.md: commands in transfer order (R47). -/

namespace Sys2Proof.Machine

/-- After commands in transfer order, `RSP` holds the response of the last one: each step before it puts its own
response in place of the old `RSP`, which no later step reads. -/
theorem run_commands_last (before : List Command) (c : Command) (q : Rsp) (rest : List Input) :
    Host.Core.run core (before.length + 1)
      (⟨q, before.map Input.command ++ Input.command c :: rest⟩ : State) =
      .next (⟨commandResponse c, rest⟩ : State) := by
  induction before generalizing q with
  | nil => exact run_command 0 c q rest
  | cons d ds ih =>
    calc Host.Core.run core (ds.length + 1 + 1)
          (⟨q, .command d :: (ds.map Input.command ++ .command c :: rest)⟩ : State)
      _ = Host.Core.run core (ds.length + 1)
            (⟨commandResponse d, ds.map Input.command ++ .command c :: rest⟩ : State) :=
          run_command (ds.length + 1) d q _
      _ = .next (⟨commandResponse c, rest⟩ : State) := ih (commandResponse d)

/-- Settles O9: the response is `commandResponse c`, alone after reset and behind any commands, by induction on the
list of commands before it. -/
theorem kthResponseIsOfKthCommand : Obligations.KthResponseIsOfKthCommand := by
  unfold Obligations.KthResponseIsOfKthCommand
  intro before c q rest
  exact ⟨commandResponse c, step_command c Rsp.reset [], run_commands_last before c q rest⟩

end Sys2Proof.Machine
end

section
/-! PROOFS. 30_encoding.md: the command record, the response record and their texts (R56, R58). -/

namespace Sys2Proof

/-- A number with a word at its low end is written as its upper part and the 16 digits of the word. -/
theorem hexText_append_word (d x : Nat) (w : Word) :
    hexText (d + 16) (x * 2 ^ 64 + w.toNat) = hexText d x ++ hexText 16 w.toNat :=
  hexText_append d 16 x w.toNat w.isLt

/-- A word of `4 * d` bits has `d` hexadecimal digits. -/
theorem toNat_lt_sixteen_pow {d : Nat} (x : BitVec (4 * d)) : x.toNat < 16 ^ d :=
  x.isLt.trans_eq (pow_mul 2 4 d)

/-- The text of a command, field by field (R56). -/
theorem Command.text_eq (c : Command) :
    c.text = hexText 2 c.op.toNat ++ hexText 16 c.bHi.toNat ++ hexText 16 c.bLo.toNat
      ++ hexText 16 c.aHi.toNat ++ hexText 16 c.aLo.toNat := by
  have nested : c.toRecord.toNat = (((c.op.toNat * 2 ^ 64 + c.bHi.toNat) * 2 ^ 64 + c.bLo.toNat) * 2 ^ 64
      + c.aHi.toNat) * 2 ^ 64 + c.aLo.toNat := by
    rw [c.toRecord_toNat]; ring
  calc c.text = hexText (2 + 16 + 16 + 16 + 16) c.toRecord.toNat := rfl
    _ = _ := by simp only [nested, hexText_append_word]

/-- The text of a command reads back as the command: 66 digits hold the 264 bits of the record (R56). -/
theorem Command.ofText_text (c : Command) : Command.ofText c.text = some c := by
  have hlen : c.text.length = 66 := hexText_length 66 _
  have hlt : c.toRecord.toNat < 16 ^ 66 := toNat_lt_sixteen_pow (d := 66) c.toRecord
  have hread : readDigits 16 hexValue 0 c.text = some c.toRecord.toNat := by
    rw [Command.text, readDigits_hexText, Nat.zero_mul, Nat.zero_add, Nat.mod_eq_of_lt hlt]
  simp only [Command.ofText, hlen, hread, if_true, Option.map_some, BitVec.ofNat_toNat,
    BitVec.setWidth_eq, Command.ofRecord_toRecord]

/-- Settles O13: the record is the sum of its fields at their places, and the text is that number written in parts. -/
theorem commandRecordLayout : Obligations.CommandRecordLayout := by
  unfold Obligations.CommandRecordLayout
  exact ⟨Command.toRecord_toNat, Command.ofRecord_toRecord, Command.toRecord_ofRecord,
    fun c => ⟨hexText_length 66 _, c.text_eq, c.ofText_text⟩⟩

end Sys2Proof

namespace Sys2Proof.Machine

/-- The response record as a number: each field at its bit position (R58). -/
theorem Rsp.record_toNat (p : Rsp) :
    p.record.toNat = p.ill.toNat * 2 ^ 131 + p.gt.toNat * 2 ^ 130 + p.eq.toNat * 2 ^ 129
      + p.lt.toNat * 2 ^ 128 + p.r.hi.toNat * 2 ^ 64 + p.r.lo.toNat := by
  simp only [Rsp.record, toNat_append_eq, BitVec.toNat_ofBool]
  ring

/-- The four status bits of a response record, read at their positions (R58). -/
theorem Rsp.record_status (p : Rsp) :
    p.record.getLsbD 131 = p.ill ∧ p.record.getLsbD 130 = p.gt ∧ p.record.getLsbD 129 = p.eq ∧
      p.record.getLsbD 128 = p.lt := by
  simp only [Rsp.record, BitVec.getLsbD_append, BitVec.getLsbD_ofBool]
  simp

/-- The two result words of a response record, read at their positions (R58). -/
theorem Rsp.record_result (p : Rsp) :
    p.record.extractLsb' 0 64 = p.r.lo ∧ p.record.extractLsb' 64 64 = p.r.hi := by
  have hrec := p.record_toNat
  have hlo := p.r.lo.isLt
  have hhi := p.r.hi.isLt
  constructor <;> apply BitVec.eq_of_toNat_eq <;>
    rw [BitVec.extractLsb'_toNat, Nat.shiftRight_eq_div_pow, hrec] <;> omega

/-- The response record and the valid bit beside it hold the whole of `RSP` (R58). -/
theorem Rsp.ofRecord_record (p : Rsp) : Rsp.ofRecord p.valid p.record = p := by
  obtain ⟨hill, hgt, heq, hlt⟩ := p.record_status
  obtain ⟨hlo, hhi⟩ := p.record_result
  simp only [Rsp.ofRecord, hill, hgt, heq, hlt, hlo, hhi]

/-- The text of a response, field by field (R58). -/
theorem Rsp.text_eq (p : Rsp) :
    p.text = hexText 1 (8 * p.ill.toNat + 4 * p.gt.toNat + 2 * p.eq.toNat + p.lt.toNat)
      ++ hexText 16 p.r.hi.toNat ++ hexText 16 p.r.lo.toNat := by
  have nested : p.record.toNat =
      ((8 * p.ill.toNat + 4 * p.gt.toNat + 2 * p.eq.toNat + p.lt.toNat) * 2 ^ 64 + p.r.hi.toNat) * 2 ^ 64
        + p.r.lo.toNat := by
    rw [p.record_toNat]; ring
  calc p.text = hexText (1 + 16 + 16) p.record.toNat := rfl
    _ = _ := by simp only [nested, hexText_append_word]

/-- Settles O14: the record is the sum of its fields at their places, and the text is that number written in parts. -/
theorem responseRecordLayout : Obligations.ResponseRecordLayout := by
  unfold Obligations.ResponseRecordLayout
  intro p
  exact ⟨p.record_toNat, p.ofRecord_record, hexText_length 33 _, p.text_eq⟩

end Sys2Proof.Machine
end

section
/-! PROOFS. 30_encoding.md: the reserved opcodes (R62) and the ignored words (R63). -/

namespace Sys2Proof

/-- The opcode of a row of the map is not reserved (R62). -/
theorem reservedOpcode_row {row : OpcodeRow} (hrow : row ∈ opcodeTable) :
    reservedOpcode row.op = false := by
  rw [← rowOf_isNone_eq_reservedOpcode, rowOf_row hrow, Option.isNone_some]

/-- The operands of a written line are zero in every word that the form does not read (R65). -/
theorem operandWords_zeroIgnored {f : Form} {ops : List Operand} {ab : Value × Value}
    (h : operandWords f ops = some ab) (op : Opcode) :
    Command.zeroIgnored f ⟨op, ab.1.lo, ab.1.hi, ab.2.lo, ab.2.hi⟩ =
      ⟨op, ab.1.lo, ab.1.hi, ab.2.lo, ab.2.hi⟩ := by
  unfold operandWords at h
  -- One case per arm: the forms `N`, `a`, `A`, `ww`, `AW`, `AB` of R57, then operands that fit no form.
  split at h
  case h_1 => obtain rfl := Option.some.inj h; rfl
  case h_2 | h_3 => obtain ⟨v, -, rfl⟩ := Option.map_eq_some_iff.mp h; rfl
  case h_4 | h_5 =>
    obtain ⟨v, -, hv⟩ := Option.bind_eq_some_iff.mp h
    obtain ⟨w, -, rfl⟩ := Option.map_eq_some_iff.mp hv
    rfl
  case h_6 => rfl
  case h_7 => cases h

/-- An assembled line is a row of the opcode map with the words of its operands (R66). -/
theorem assemble_eq_some {l : Line} {c : Command} (h : assemble l = some c) :
    ∃ row ∈ opcodeTable, ∃ ab : Value × Value, operandWords row.form l.operands = some ab ∧
      c = ⟨row.op, ab.1.lo, ab.1.hi, ab.2.lo, ab.2.hi⟩ := by
  simp only [assemble, Option.bind_eq_some_iff, Option.map_eq_some_iff] at h
  obtain ⟨row, hrow, ab, hab, rfl⟩ := h
  exact ⟨row, List.mem_of_find?_eq_some hrow, ab, hab, rfl⟩

end Sys2Proof

namespace Sys2Proof.Machine

/-- The response to a reserved opcode is the illegal-opcode report (R152). -/
theorem commandResponse_of_reserved {c : Command} (h : reservedOpcode c.op = true) :
    commandResponse c = Rsp.illegal := by
  simp only [commandResponse, execCommand, decodeCommand_of_reserved h]
  rfl

/-- Settles O16: the decoder rejects exactly the listed opcodes, the response to one is `Rsp.illegal`, and the next
command puts its own response in its place. -/
theorem reservedOpcodesAreReported : Obligations.ReservedOpcodesAreReported := by
  unfold Obligations.ReservedOpcodesAreReported
  refine ⟨?reported, ?notSticky, ?defined, reservedOpcode_count⟩
  case reported =>
    intro c q rest h
    refine ⟨decodeCommand_of_reserved h, ?_⟩
    rw [step_command, commandResponse_of_reserved h, Rsp.illegal]
  case notSticky =>
    intro c d q rest _
    exact ⟨⟨commandResponse c, .command d :: rest⟩, commandResponse d, step_command c q _,
      step_command d _ rest, commandResponse_ill d⟩
  case defined =>
    intro c h
    rcases decodeCommand_cases c with ⟨row, -, -, -, hrow⟩ | ⟨hres, -⟩
    · exact ⟨row.make c, hrow⟩
    · exact absurd (h.symm.trans hres) Bool.false_ne_true

/-- The response depends on the command through its decoding alone. -/
theorem commandResponse_congr {c c' : Command} (h : decodeCommand c = decodeCommand c') :
    commandResponse c = commandResponse c' := by
  simp only [commandResponse, execCommand, h]

/-- Zeroing the words a row's form ignores does not change the response (R63). -/
theorem commandResponse_zeroIgnored {row : OpcodeRow} (hrow : row ∈ opcodeTable) {c : Command}
    (hop : c.op = row.op) : commandResponse (c.zeroIgnored row.form) = commandResponse c := by
  have hfind : rowOf c.op = some row := hop ▸ rowOf_row hrow
  apply commandResponse_congr
  calc decodeCommand (c.zeroIgnored row.form)
    _ = .ok (row.make (c.zeroIgnored row.form)) := decodeCommand_of_row hfind
    _ = .ok (row.make c) := by rw [make_zeroIgnored hrow]
    _ = decodeCommand c := (decodeCommand_of_row hfind).symm

/-- Settles O17: the response is that of the command with the ignored words zeroed, which the two commands share. -/
theorem ignoredWordsHaveNoEffect : Obligations.IgnoredWordsHaveNoEffect := by
  unfold Obligations.IgnoredWordsHaveNoEffect
  constructor
  · intro row hrow c c' hop hagree
    have hop' : c'.op = row.op := (congrArg Command.op hagree).trans hop
    have hsame : commandResponse c' = commandResponse c := by
      rw [← commandResponse_zeroIgnored hrow hop', hagree, commandResponse_zeroIgnored hrow hop]
    have hill : (commandResponse c).ill = false := by
      rw [commandResponse_ill, hop, reservedOpcode_row hrow]
    exact ⟨commandResponse c, hill, fun q rest => ⟨step_command c q rest, hsame ▸ step_command c' q rest⟩⟩
  · intro l c h
    obtain ⟨row, hrow, ab, hab, rfl⟩ := assemble_eq_some h
    exact ⟨row, hrow, rfl, operandWords_zeroIgnored hab row.op⟩

end Sys2Proof.Machine
end

section
/-! PROOFS. 40_mul64.md: the strategies of the multiplier (R81). -/

namespace Sys2Proof.Machine

/-- Settles O25: the strategies are the three cases of `mul64`, and each returns the pair that stands for the exact
product, so any selection of a platform returns the pair of the limb algorithm. -/
theorem strategiesAgreeBitForBit : Obligations.StrategiesAgreeBitForBit := by
  unfold Obligations.StrategiesAgreeBitForBit
  intro a b
  have agreesWithLimb : ∀ st : MulStrategy, mul64 st a b = mul64Limb a b :=
    fun st => mul64_eq_mul64 st .limb a b
  exact ⟨agreesWithLimb .primitive, agreesWithLimb .wide, fun p => agreesWithLimb p.select⟩

end Sys2Proof.Machine
end

section
/-! PROOFS. 41_shift.md: SHL (R91). -/

namespace Sys2Proof.Machine

/-- Opcode 0x20 selects the row of SHL, which takes `A` as a value and the low word of `B` as the amount (R57, R60). -/
theorem decodeCommand_shl {c : Command} (hop : c.op = 0x20#8) :
    decodeCommand c = .ok (.shl c.a c.bLo) := by
  have hrow : rowOf c.op = some ⟨0x20#8, "SHL", .valueWord, fun c => .shl c.a c.bLo⟩ := by
    rw [hop]; rfl
  exact decodeCommand_of_row hrow

/-- SHL answers with the shift by the whole word `n`, without flags, and changes nothing else (R91). -/
theorem exec_shl (a : Value) (n : Word) (s : State) :
    exec (.shl a n) s = .next { s with rsp := Rsp.answer (shl128 a n.toNat) } := rfl

/-- Settles O28: the answer is `shl128 a n.toNat`, whose value `shl128_val` gives for every amount. -/
theorem shiftLeftMultiplies : Obligations.ShiftLeftMultiplies := by
  unfold Obligations.ShiftLeftMultiplies
  constructor
  · intro c hop
    exact decodeCommand_shl hop
  · intro a n s
    exact ⟨shl128 a n.toNat, shl128_val a n.toNat, exec_shl a n s⟩

end Sys2Proof.Machine
end

section
/-! PROOFS. 42_bitwise.md: NOT, AND, OR and XOR (R101 to R104). -/

namespace Sys2Proof

/-- A command decodes by the row that the opcode map holds for its opcode (R61). -/
theorem decodeCommand_of_opcode {c : Command} {op : Opcode} {row : OpcodeRow} (hop : c.op = op)
    (hrow : rowOf op = some row) : decodeCommand c = .ok (row.make c) :=
  decodeCommand_of_row (hop ▸ hrow)

/-- Opcode 0x30 is NOT and takes `A` as a value (R60). -/
theorem decodeCommand_not {c : Command} (hop : c.op = 0x30#8) : decodeCommand c = .ok (.not c.a) :=
  decodeCommand_of_opcode hop (row := ⟨_, "NOT", .value, _⟩) rfl

/-- Opcode 0x31 is AND and takes both operands as values (R60). -/
theorem decodeCommand_and {c : Command} (hop : c.op = 0x31#8) : decodeCommand c = .ok (.and c.a c.b) :=
  decodeCommand_of_opcode hop (row := ⟨_, "AND", .valueValue, _⟩) rfl

/-- Opcode 0x32 is OR and takes both operands as values (R60). -/
theorem decodeCommand_or {c : Command} (hop : c.op = 0x32#8) : decodeCommand c = .ok (.or c.a c.b) :=
  decodeCommand_of_opcode hop (row := ⟨_, "OR", .valueValue, _⟩) rfl

/-- Opcode 0x33 is XOR and takes both operands as values (R60). -/
theorem decodeCommand_xor {c : Command} (hop : c.op = 0x33#8) : decodeCommand c = .ok (.xor c.a c.b) :=
  decodeCommand_of_opcode hop (row := ⟨_, "XOR", .valueValue, _⟩) rfl

end Sys2Proof

namespace Sys2Proof.Machine

/-- NOT answers with the complement of each word, without flags, and changes nothing else (R101). The arithmetic
`not64(x) = 2⁶⁴ − 1 − x` is the complement of the bits. -/
theorem exec_not (a : Value) (s : State) :
    exec (.not a) s = .next { s with rsp := Rsp.answer ⟨~~~a.lo, ~~~a.hi⟩ } := by
  calc exec (.not a) s
    _ = .next { s with rsp := Rsp.answer ⟨not64 a.lo, not64 a.hi⟩ } := rfl
    _ = .next { s with rsp := Rsp.answer ⟨~~~a.lo, ~~~a.hi⟩ } := by rw [not64_eq, not64_eq]

/-- AND answers with the conjunction of the words of the same name, without flags (R102). -/
theorem exec_and (a b : Value) (s : State) :
    exec (.and a b) s = .next { s with rsp := Rsp.answer ⟨a.lo &&& b.lo, a.hi &&& b.hi⟩ } := rfl

/-- OR answers with the disjunction of the words of the same name, without flags (R103). -/
theorem exec_or (a b : Value) (s : State) :
    exec (.or a b) s = .next { s with rsp := Rsp.answer ⟨a.lo ||| b.lo, a.hi ||| b.hi⟩ } := rfl

/-- XOR answers with the exclusive disjunction of the words of the same name, without flags (R104). -/
theorem exec_xor (a b : Value) (s : State) :
    exec (.xor a b) s = .next { s with rsp := Rsp.answer ⟨a.lo ^^^ b.lo, a.hi ^^^ b.hi⟩ } := rfl

/-- Settles O33: each opcode selects its row, and each operation answers with the words written out in its `exec_`
lemma. -/
theorem logicIsWordwise : Obligations.LogicIsWordwise := by
  unfold Obligations.LogicIsWordwise
  refine ⟨fun _ => decodeCommand_not, fun _ => decodeCommand_and, fun _ => decodeCommand_or,
    fun _ => decodeCommand_xor, fun a b s => ?_⟩
  exact ⟨exec_not a s, exec_and a b s, exec_or a b s, exec_xor a b s⟩

end Sys2Proof.Machine
end

section
/-! PROOFS. 43_compare.md: CMP (R111), and the status bits after every command (10_state.md R25, R28). -/

namespace Sys2Proof

/-- Opcode 0x40 is CMP and takes both operands as values (R60). -/
theorem decodeCommand_cmp {c : Command} (hop : c.op = 0x40#8) : decodeCommand c = .ok (.cmp c.a c.b) :=
  decodeCommand_of_opcode hop (row := ⟨_, "CMP", .valueValue, _⟩) rfl

/-- The instruction that a row makes is one the encoder writes under the row's own opcode (R60). -/
theorem encodeCommand_make_op {row : OpcodeRow} (hrow : row ∈ opcodeTable) (c : Command) :
    (encodeCommand (row.make c)).op = row.op := by
  have everyRow : ∀ r ∈ opcodeTable, (encodeCommand (r.make c)).op = r.op := by
    simp [opcodeTable, encodeCommand]
  exact everyRow row hrow

/-- A command that decodes to CMP has its opcode (R60). -/
theorem op_of_decodeCommand_cmp {c : Command} {a b : Value} (h : decodeCommand c = .ok (.cmp a b)) :
    c.op = 0x40#8 := by
  rcases decodeCommand_cases c with ⟨row, hrow, hop, -, hok⟩ | ⟨-, herr⟩
  · have hmake : row.make c = .cmp a b := Except.ok.inj (hok.symm.trans h)
    calc c.op
      _ = row.op := hop.symm
      _ = (encodeCommand (row.make c)).op := (encodeCommand_make_op hrow c).symm
      _ = 0x40#8 := by rw [hmake]; rfl
  · cases herr.symm.trans h

end Sys2Proof

namespace Sys2Proof.Machine

/-- CMP answers with the three flags of the comparison and ZERO, and changes nothing else (R111). -/
theorem exec_cmp (a b : Value) (s : State) :
    exec (.cmp a b) s = .next (respondOrder (valueLt a b) (valueEq a b) (valueGt a b) s) := rfl

/-- Settles O35: opcode 0x40 selects the row of CMP, whose flags `valueLt`, `valueEq` and `valueGt` are the rule's
formulas. -/
theorem compareWritesItsFlags : Obligations.CompareWritesItsFlags := by
  unfold Obligations.CompareWritesItsFlags
  constructor
  · intro c hop
    exact decodeCommand_cmp hop
  · intro a b s
    rw [exec_cmp, respondOrder, valueLt, valueEq, valueGt]

/-- The response to a command that decodes is what its instruction leaves in `RSP`. -/
theorem commandResponse_of_exec {c : Command} {i : Instr} {t : State} (hdecode : decodeCommand c = .ok i)
    (hexec : exec i State.reset = .next t) : commandResponse c = t.rsp := by
  simp only [commandResponse, execCommand, hdecode, hexec, commandResponse.responseOf]

/-- After CMP the flags are the comparisons of the two numbers, one-hot (R28, R112). -/
theorem commandResponse_flags_of_cmp {c : Command} (hop : c.op = 0x40#8) :
    (commandResponse c).lt = decide (c.a.val < c.b.val) ∧
    (commandResponse c).eq = decide (c.a.val = c.b.val) ∧
    (commandResponse c).gt = decide (c.b.val < c.a.val) ∧
    (commandResponse c).lt.toNat + (commandResponse c).eq.toNat + (commandResponse c).gt.toNat = 1 := by
  obtain ⟨hlt, heq, hgt⟩ := flags_eq_decide c.a c.b
  rw [commandResponse_of_exec (decodeCommand_cmp hop) (exec_cmp c.a c.b State.reset)]
  exact ⟨hlt, heq, hgt, order_flags_one_hot c.a c.b⟩

/-- After any other command, defined or reserved, the flags are 0 (R28, R152). -/
theorem commandResponse_flags_of_not_cmp {c : Command} (hop : c.op ≠ 0x40#8) :
    (commandResponse c).lt = false ∧ (commandResponse c).eq = false ∧ (commandResponse c).gt = false := by
  rcases decodeCommand_cases c with ⟨row, -, -, -, hdecode⟩ | ⟨hreserved, -⟩
  · rcases exec_cases (row.make c) State.reset with ⟨v, hexec⟩ | ⟨a, b, hcmp, -⟩
    · rw [commandResponse_of_exec hdecode (hexec State.reset)]
      exact ⟨respond_lt .., respond_eq .., respond_gt ..⟩
    · exact absurd (op_of_decodeCommand_cmp (hcmp ▸ hdecode)) hop
  · rw [commandResponse_of_reserved hreserved]
    exact ⟨rfl, rfl, rfl⟩

/-- Settles O10: the response is `commandResponse c`, whose flags are those of the comparison under CMP and 0 under
every other opcode. -/
theorem flagsAreWrittenAsTabled : Obligations.FlagsAreWrittenAsTabled := by
  unfold Obligations.FlagsAreWrittenAsTabled
  intro c
  exact ⟨commandResponse c, step_command c, commandResponse_ill c, commandResponse_valid c,
    commandResponse_flags_of_cmp, commandResponse_flags_of_not_cmp⟩

end Sys2Proof.Machine
end

section
/-! PROOFS. 44_add.md: ADD and ADDW (R121, R122). -/

namespace Sys2Proof

/-- Opcode 0x50 is ADD and takes both operands as values (R60). -/
theorem decodeCommand_add {c : Command} (hop : c.op = 0x50#8) : decodeCommand c = .ok (.add c.a c.b) :=
  decodeCommand_of_opcode hop (row := ⟨_, "ADD", .valueValue, _⟩) rfl

/-- Opcode 0x51 is ADDW and takes `A` as a value and the low word of `B` as the word (R57, R60). -/
theorem decodeCommand_addw {c : Command} (hop : c.op = 0x51#8) : decodeCommand c = .ok (.addw c.a c.bLo) :=
  decodeCommand_of_opcode hop (row := ⟨_, "ADDW", .valueWord, _⟩) rfl

end Sys2Proof

namespace Sys2Proof.Machine

/-- The sum of two values, word by word: only the carry of the low words passes from one word to the other (R121). -/
theorem add128_eq (a b : Value) :
    add128 a b = ⟨a.lo + b.lo, a.hi + b.hi + carryOf (a.lo + b.lo) b.lo⟩ := by
  simp only [add128, add64_eq]

/-- The sum of a value and a word, word by word: the high word takes the carry alone (R122). -/
theorem addWord_eq (a : Value) (w : Word) :
    addWord a w = ⟨a.lo + w, a.hi + carryOf (a.lo + w) w⟩ := by
  simp only [addWord, add64_eq]

/-- ADD answers with the sum of the two values, without flags, and changes nothing else (R121). -/
theorem exec_add (a b : Value) (s : State) :
    exec (.add a b) s = .next { s with rsp := Rsp.answer (add128 a b) } := rfl

/-- ADDW answers with the sum of the value and the word, without flags, and changes nothing else (R122). -/
theorem exec_addw (a : Value) (w : Word) (s : State) :
    exec (.addw a w) s = .next { s with rsp := Rsp.answer (addWord a w) } := rfl

/-- ADDW does what ADD does with the added operand `(W, 0)` (R122). -/
theorem exec_addw_eq_exec_add (a : Value) (w : Word) (s : State) :
    exec (.addw a w) s = exec (.add a (wordValue w)) s := by
  rw [exec_addw, exec_add, addWord_eq_add128]

/-- Settles O38: the answer is `add128 a b`, whose words `add128_eq` writes out and whose value is the sum modulo
2¹²⁸ by `add128_val`. -/
theorem addWrapsSilently : Obligations.AddWrapsSilently := by
  unfold Obligations.AddWrapsSilently
  refine ⟨fun _ => decodeCommand_add, fun a b s => ?_⟩
  refine ⟨_, _, carryOf (a.lo + b.lo) b.lo, rfl, rfl, rfl, ?value, ?answer⟩
  case value => rw [← add128_eq, add128_val]
  case answer => rw [← add128_eq]; exact exec_add a b s

/-- Settles O39: the answer is `addWord a w`, the sum that ADD gives for `(W, 0)`, whose words `addWord_eq` writes
out and whose value is the sum modulo 2¹²⁸ by `addWord_val`. -/
theorem addWordWrapsSilently : Obligations.AddWordWrapsSilently := by
  unfold Obligations.AddWordWrapsSilently
  refine ⟨fun _ => decodeCommand_addw, fun a w s => ⟨exec_addw_eq_exec_add a w s, ?_⟩⟩
  refine ⟨_, _, carryOf (a.lo + w) w, rfl, rfl, rfl, ?value, ?answer⟩
  case value => rw [← addWord_eq, addWord_val]
  case answer => rw [← addWord_eq]; exact exec_addw a w s

end Sys2Proof.Machine
end

section
/-! PROOFS. 45_mul128.md: MULW and MUL (R131, R132) and the strategy of the multiplier (R135). -/

namespace Sys2Proof

/-- Opcode 0x60 is MULW and takes `A` as a value and the low word of `B` as the word (R57, R60). -/
theorem decodeCommand_mulw {c : Command} (hop : c.op = 0x60#8) : decodeCommand c = .ok (.mulw c.a c.bLo) :=
  decodeCommand_of_opcode hop (row := ⟨_, "MULW", .valueWord, _⟩) rfl

/-- Opcode 0x61 is MUL and takes both operands as values (R60). -/
theorem decodeCommand_mul {c : Command} (hop : c.op = 0x61#8) : decodeCommand c = .ok (.mul c.a c.b) :=
  decodeCommand_of_opcode hop (row := ⟨_, "MUL", .valueValue, _⟩) rfl

end Sys2Proof

namespace Sys2Proof.Machine

/-- The product of a value and a word, word by word: the product of the low word in full, with the low word of the
other product added to its high word (R131). -/
theorem mulWord_eq (st : MulStrategy) (a : Value) (w : Word) :
    mulWord st a w = ⟨(mul64 st a.lo w).lo, (mul64 st a.lo w).hi + (mul64 st a.hi w).lo⟩ := by
  simp only [mulWord, add128_highValue]

/-- The product of two values, word by word: the product of the low words in full, with the low words of the two cross
products added to its high word (R132). -/
theorem mul128_eq (st : MulStrategy) (a b : Value) :
    mul128 st a b = ⟨(mul64 st a.lo b.lo).lo,
      (mul64 st a.lo b.lo).hi + (mul64 st a.lo b.hi).lo + (mul64 st a.hi b.lo).lo⟩ := by
  simp only [mul128, add128_highValue]

/-- MULW answers with the product of the value and the word, without flags, and changes nothing else (R131). -/
theorem exec_mulw (a : Value) (w : Word) (s : State) :
    exec (.mulw a w) s = .next { s with rsp := Rsp.answer (mulWord Config.mulStrategy a w) } := rfl

/-- MUL answers with the product of the two values, without flags, and changes nothing else (R132). -/
theorem exec_mul (a b : Value) (s : State) :
    exec (.mul a b) s = .next { s with rsp := Rsp.answer (mul128 Config.mulStrategy a b) } := rfl

/-- Settles O42: the answer is `mulWord` of the instance's strategy, whose words `mulWord_eq` writes out from the exact
products `mul64` and whose value is the product modulo 2¹²⁸ by `mulWord_val`. -/
theorem mulWordWrapsSilently : Obligations.MulWordWrapsSilently := by
  unfold Obligations.MulWordWrapsSilently
  refine ⟨fun _ => decodeCommand_mulw, fun a w s => ?_⟩
  exact ⟨mul64 Config.mulStrategy a.lo w, mul64 Config.mulStrategy a.hi w, mulWord Config.mulStrategy a w,
    mul64_val _ a.lo w, mul64_val _ a.hi w, mulWord_eq _ a w, mulWord_val _ a w, exec_mulw a w s⟩

/-- Settles O43: the answer is `mul128` of the instance's strategy, whose words `mul128_eq` writes out from the exact
products `mul64` and whose value is the product modulo 2¹²⁸ by `mul128_val`. -/
theorem mulWrapsSilently : Obligations.MulWrapsSilently := by
  unfold Obligations.MulWrapsSilently
  refine ⟨fun _ => decodeCommand_mul, fun a b s => ?_⟩
  exact ⟨mul64 Config.mulStrategy a.lo b.lo, mul64 Config.mulStrategy a.lo b.hi, mul64 Config.mulStrategy a.hi b.lo,
    mul128 Config.mulStrategy a b, mul64_val _ a.lo b.lo, mul64_val _ a.lo b.hi, mul64_val _ a.hi b.lo,
    mul128_eq _ a b, mul128_val _ a b, exec_mul a b s⟩

/-- Settles O45: the strategy enters both products only through `mul64`, which every strategy answers alike. -/
theorem strategyHasNoEffectOnProducts : Obligations.StrategyHasNoEffectOnProducts := by
  unfold Obligations.StrategyHasNoEffectOnProducts
  intro st st' a b w
  have sameMul64 : mul64 st = mul64 st' := funext₂ (mul64_eq_mul64 st st')
  constructor
  · simp only [mulWord, sameMul64]
  · simp only [mul128, sameMul64]

end Sys2Proof.Machine
end

section
/-! PROOFS. 46_construct.md: ZERO, ONE, MAX, FROMW and FROMP (R141 to R145). -/

namespace Sys2Proof

/-- Opcode 0x70 is ZERO and reads no operand (R60). -/
theorem decodeCommand_zero {c : Command} (hop : c.op = 0x70#8) : decodeCommand c = .ok .zero :=
  decodeCommand_of_opcode hop (row := ⟨_, "ZERO", .none, _⟩) rfl

/-- Opcode 0x71 is ONE and reads no operand (R60). -/
theorem decodeCommand_one {c : Command} (hop : c.op = 0x71#8) : decodeCommand c = .ok .one :=
  decodeCommand_of_opcode hop (row := ⟨_, "ONE", .none, _⟩) rfl

/-- Opcode 0x72 is MAX and reads no operand (R60). -/
theorem decodeCommand_max {c : Command} (hop : c.op = 0x72#8) : decodeCommand c = .ok .max :=
  decodeCommand_of_opcode hop (row := ⟨_, "MAX", .none, _⟩) rfl

/-- Opcode 0x73 is FROMW and takes the low word of `A` (R57, R60). -/
theorem decodeCommand_fromw {c : Command} (hop : c.op = 0x73#8) : decodeCommand c = .ok (.fromw c.aLo) :=
  decodeCommand_of_opcode hop (row := ⟨_, "FROMW", .word, _⟩) rfl

/-- Opcode 0x74 is FROMP and takes `A` as a value (R57, R60). -/
theorem decodeCommand_fromp {c : Command} (hop : c.op = 0x74#8) : decodeCommand c = .ok (.fromp c.a) :=
  decodeCommand_of_opcode hop (row := ⟨_, "FROMP", .value, _⟩) rfl

end Sys2Proof

namespace Sys2Proof.Machine

/-- ZERO answers with the constant 0, without flags, and changes nothing else (R141). -/
theorem exec_zero (s : State) : exec .zero s = .next { s with rsp := Rsp.answer Value.zero } := rfl

/-- ONE answers with the constant 1, without flags, and changes nothing else (R142). -/
theorem exec_one (s : State) : exec .one s = .next { s with rsp := Rsp.answer Value.one } := rfl

/-- MAX answers with the largest value, without flags, and changes nothing else (R143). -/
theorem exec_max (s : State) : exec .max s = .next { s with rsp := Rsp.answer Value.max } := rfl

/-- FROMW answers with the word extended by a zero high word, without flags, and changes nothing else (R144). -/
theorem exec_fromw (w : Word) (s : State) :
    exec (.fromw w) s = .next { s with rsp := Rsp.answer (wordValue w) } := rfl

/-- FROMP answers with its operand, without flags, and changes nothing else (R145). -/
theorem exec_fromp (a : Value) (s : State) : exec (.fromp a) s = .next { s with rsp := Rsp.answer a } := rfl

/-- Settles O47: each opcode selects the row of its constructor, and the five answers are `Value.zero`, `Value.one`,
`Value.max`, `wordValue w` and the operand of FROMP itself, written out word by word. -/
theorem constructorsGiveTheirValues : Obligations.ConstructorsGiveTheirValues := by
  unfold Obligations.ConstructorsGiveTheirValues
  refine ⟨fun _ => decodeCommand_zero, fun _ => decodeCommand_one, fun _ => decodeCommand_max,
    fun _ => decodeCommand_fromw, fun _ => decodeCommand_fromp, fun w a s => ?answers⟩
  case answers => exact ⟨exec_zero s, exec_one s, exec_max s, exec_fromw w s, exec_fromp a s⟩

end Sys2Proof.Machine
end

section
/-! PROOFS. 10_state.md: the invariant of `RSP` (R34). -/

namespace Sys2Proof.Machine

/-- A valid response with `ill = 0` meets the invariant as soon as at most one flag is 1 (R34). -/
theorem Rsp.inv_of_legal {p : Rsp} (hvalid : p.valid = true) (hill : p.ill = false)
    (hflags : p.lt.toNat + p.eq.toNat + p.gt.toNat ≤ 1) : p.Inv :=
  ⟨hflags, fun h => absurd (hill.symm.trans h) Bool.false_ne_true,
    fun h => absurd (h.symm.trans hvalid) Bool.false_ne_true⟩

/-- The all-zero register meets the invariant (R33, R34). -/
theorem Rsp.inv_reset : Rsp.reset.Inv :=
  ⟨Nat.zero_le 1, fun h => absurd h Bool.false_ne_true, fun _ => rfl⟩

/-- The illegal-opcode report meets the invariant: all its fields but `valid` and `ill` are zero (R34, R152). -/
theorem Rsp.inv_illegal : Rsp.illegal.Inv :=
  ⟨Nat.zero_le 1, fun _ => ⟨rfl, rfl, rfl, rfl⟩, fun h => absurd h.symm Bool.false_ne_true⟩

/-- Every response meets the invariant: an answer without flags, the one-hot flags of CMP, or the report of a reserved
opcode (R28, R34). -/
theorem commandResponse_inv (c : Command) : (commandResponse c).Inv := by
  rcases decodeCommand_cases c with ⟨row, -, -, -, hdecode⟩ | ⟨hreserved, -⟩
  · rcases exec_cases (row.make c) State.reset with ⟨v, hexec⟩ | ⟨a, b, -, hexec⟩
    · rw [commandResponse_of_exec hdecode (hexec State.reset)]
      exact Rsp.inv_of_legal rfl rfl (Nat.zero_le 1)
    · rw [commandResponse_of_exec hdecode hexec]
      exact Rsp.inv_of_legal rfl rfl (order_flags_one_hot a b).le
  · rw [commandResponse_of_reserved hreserved]
    exact Rsp.inv_illegal

/-- Settles O5: a step leaves `RSP` alone, zeroes it, or writes the response of a command, and each of the three meets
the invariant. -/
theorem stepKeepsInvariant : Obligations.StepKeepsInvariant := by
  unfold Obligations.StepKeepsInvariant
  intro s t hinv hstep
  rcases step_cases s with ⟨-, h⟩ | ⟨rest, -, h⟩ | ⟨c, rest, -, h⟩ <;>
    obtain rfl := Host.Outcome.next.inj (h.symm.trans hstep)
  · exact hinv
  · exact Rsp.inv_reset
  · exact commandResponse_inv c

/-- Settles O4: the reset state holds the all-zero register. -/
theorem invariantHoldsAtReset : Obligations.InvariantHoldsAtReset := by
  unfold Obligations.InvariantHoldsAtReset
  exact Rsp.inv_reset

end Sys2Proof.Machine
end

section
/-! PROOFS. 30_encoding.md: the decoder and the encoder (R56 to R63). -/

namespace Sys2Proof

/-- Decoding the record of a command is decoding the command (R56). -/
theorem decode_toRecord (c : Command) : decode c.toRecord = decodeCommand c :=
  congrArg decodeCommand c.ofRecord_toRecord

/-- The record of an instruction decodes to it, for it holds the encoder's command whole (R56, R66). -/
theorem decode_encode (i : Instr) : decode (encode i) = .ok i := by
  rw [encode, decode_toRecord, decodeCommand_encodeCommand]

/-- Settles O11, by `decode_encode`. -/
theorem decodeEncodeRoundTrip : Obligations.DecodeEncodeRoundTrip := by
  unfold Obligations.DecodeEncodeRoundTrip
  exact decode_encode

/-- The encoder writes the words that a row read for its instruction, and zero for those its form ignores (R63). -/
theorem encodeCommand_make {row : OpcodeRow} (hrow : row ∈ opcodeTable) {c : Command} (hop : row.op = c.op) :
    encodeCommand (row.make c) = c.zeroIgnored (row.make c).form := by
  have everyRow : ∀ r ∈ opcodeTable, r.op = c.op →
      encodeCommand (r.make c) = c.zeroIgnored (r.make c).form := by
    simp +contextual [opcodeTable, encodeCommand, Command.zeroIgnored, Instr.form, Form.reads, Command.a,
      Command.b]
  exact everyRow row hrow hop

/-- Settles O12: the record decodes by the row of its opcode, which the encoder undoes on the words its form reads. -/
theorem encodeDecodeIsCanonical : Obligations.EncodeDecodeIsCanonical := by
  unfold Obligations.EncodeDecodeIsCanonical
  intro r i hdecode
  rcases decodeCommand_cases (Command.ofRecord r) with ⟨row, hrow, hop, -, hok⟩ | ⟨-, herr⟩
  · obtain rfl : row.make (Command.ofRecord r) = i := Except.ok.inj (hok.symm.trans hdecode)
    rw [encode, encodeCommand_make hrow hop]
  · cases herr.symm.trans hdecode

/-- An opcode without a row is not in the opcode map. -/
theorem not_mem_of_rowOf_eq_none {op : Opcode} (h : rowOf op = none) : op ∉ opcodeTable.map (·.op) := by
  intro hmem
  obtain ⟨row, hrow, rfl⟩ := List.mem_map.mp hmem
  cases h.symm.trans (rowOf_row hrow)

/-- Settles O15: the decoder's answer is the row that the map holds for the opcode, or the reserved opcode by name. -/
theorem decodingLooksAtTheOpcodeAlone : Obligations.DecodingLooksAtTheOpcodeAlone := by
  unfold Obligations.DecodingLooksAtTheOpcodeAlone
  refine ⟨rfl, by decide, fun op => ?_⟩
  cases hrow : rowOf op with
  | some row =>
    exact .inl ⟨row, rowOf_mem hrow, rowOf_op hrow, fun c hop => decodeCommand_of_opcode hop hrow⟩
  | none =>
    refine .inr ⟨not_mem_of_rowOf_eq_none hrow, ?_⟩
    rintro c rfl
    apply decodeCommand_of_reserved
    rw [← rowOf_isNone_eq_reservedOpcode, hrow, Option.isNone_none]

/-- A record that is an instruction's encoding decodes to that instruction. -/
theorem decode_of_encode_eq {r : CmdRecord} {i : Instr} (h : encode i = r) : decode r = .ok i :=
  h ▸ decode_encode i

/-- Settles O18: each record is the encoding of the instruction it stands for, its fields put together. -/
theorem writtenRecordsDecode : Obligations.WrittenRecordsDecode := by
  unfold Obligations.WrittenRecordsDecode
  refine ⟨?_, ?_, ?_, ?_, ?_, ?_, ?_⟩ <;> apply decode_of_encode_eq <;>
    simp [encode, encodeCommand, Command.toRecord]

end Sys2Proof
end

section
/-! PROOFS. 60_exceptions.md: a step runs the decoded instruction (R61) and nothing stops (R150). -/

namespace Sys2Proof.Machine

/-- A command that decodes runs its instruction (R61). -/
theorem execCommand_of_decode {c : Command} {i : Instr} (h : decodeCommand c = .ok i) (s : State) :
    execCommand c s = exec i s := by
  simp only [execCommand, h]

/-- Settles O6: the record on the port, and a word of the opcode table put there, decode as the command they hold. -/
theorem stepRunsDecodedInstruction : Obligations.StepRunsDecodedInstruction := by
  unfold Obligations.StepRunsDecodedInstruction
  constructor
  · intro q c rest i h
    rw [decode_toRecord] at h
    exact execCommand_of_decode h ⟨q, rest⟩
  · intro s nbits w i h
    have hok : decodeCommand (tableCommand nbits w) = .ok i := by
      rw [decodeTableWord, decode_toRecord] at h
      cases hdecode : decodeCommand (tableCommand nbits w) with
      | ok j => rw [hdecode] at h; exact congrArg Except.ok (Option.some.inj h)
      | error e => rw [hdecode] at h; cases h
    exact execCommand_of_decode hok s

/-- Settles O7: an instruction answers by `respond` or by the flags of a comparison, and each of the three things
a step does gives a next state. -/
theorem nothingEverStops : Obligations.NothingEverStops := by
  unfold Obligations.NothingEverStops
  constructor
  · intro i s
    rcases exec_cases i s with ⟨v, h⟩ | ⟨a, b, -, h⟩
    · exact ⟨_, h s, respond_ill .., respond_valid .., respond_inputs ..⟩
    · exact ⟨_, h, respondOrder_ill .., respondOrder_valid .., respondOrder_inputs ..⟩
  · intro s
    rcases step_cases s with ⟨-, h⟩ | ⟨rest, -, h⟩ | ⟨c, rest, -, h⟩ <;> exact ⟨_, h⟩

end Sys2Proof.Machine
end

section
/-! PROOFS. 10_state.md: the number and the bits of a value, and the order of values (R20 to R22). -/

namespace Sys2Proof

/-- Settles O22, from the two inverse laws of `val` and `ofNat` and the number of the 128 bits. -/
theorem valIsABijection : Obligations.ValIsABijection := by
  unfold Obligations.ValIsABijection
  exact ⟨fun v => ⟨v.val_lt, v.ofNat_val⟩, Value.val_ofNat, Value.bits_toNat⟩

end Sys2Proof

namespace Sys2Proof.Machine

/-- Equality of values is equality of the words of the same name (R21). -/
theorem valueEq_iff_words (x y : Value) : valueEq x y = true ↔ x.lo = y.lo ∧ x.hi = y.hi := by
  simp only [valueEq, Bool.and_eq_true, beq_iff_eq, and_comm]

/-- The order of values is lexicographic with the high word first (R22). -/
theorem valueLt_iff_words (x y : Value) :
    valueLt x y = true ↔ x.hi.toNat < y.hi.toNat ∨ (x.hi = y.hi ∧ x.lo.toNat < y.lo.toNat) := by
  simp only [valueLt, Bool.or_eq_true, Bool.and_eq_true, decide_eq_true_eq, beq_iff_eq]

/-- `x > y` is `y < x` (R22). -/
theorem valueGt_eq_valueLt (x y : Value) : valueGt x y = valueLt y x := by
  rw [Bool.eq_iff_iff, valueGt_iff, valueLt_iff]

/-- Equality of values is symmetric. -/
theorem valueEq_comm (x y : Value) : valueEq x y = valueEq y x := by
  rw [Bool.eq_iff_iff, valueEq_iff, valueEq_iff, eq_comm]

/-- Settles O23: the comparisons are those of the numbers, whose order is total and transitive. -/
theorem orderIsLexicographicAndTotal : Obligations.OrderIsLexicographicAndTotal := by
  unfold Obligations.OrderIsLexicographicAndTotal
  refine ⟨fun x y => ⟨valueEq_iff_words x y, valueEq_iff x y⟩,
    fun x y => ⟨valueLt_iff_words x y, valueLt_iff x y, valueGt_eq_valueLt x y⟩, ?oneOfThree, ?transitive, rfl⟩
  case oneOfThree =>
    intro x y
    rw [← valueGt_eq_valueLt x y]
    exact order_flags_one_hot x y
  case transitive =>
    intro x y z
    rw [valueLt_iff, valueLt_iff, valueLt_iff]
    exact Nat.lt_trans

end Sys2Proof.Machine
end

section
/-! PROOFS. 40_mul64.md: MUL64 (R80), the words of the limb algorithm (R84), and the laws of the multiplier (R88). -/

namespace Sys2Proof

/-- Opcode 0x10 is MUL64 and takes the low words of both operands (R57, R60). -/
theorem decodeCommand_mul64 {c : Command} (hop : c.op = 0x10#8) :
    decodeCommand c = .ok (.mul64 c.aLo c.bLo) :=
  decodeCommand_of_opcode hop (row := ⟨_, "MUL64", .wordWord, _⟩) rfl

end Sys2Proof

namespace Sys2Proof.Machine

/-- MUL64 answers with the product of the two words, without flags, and changes nothing else (R80). -/
theorem exec_mul64 (a b : Word) (s : State) :
    exec (.mul64 a b) s = .next { s with rsp := Rsp.answer (mul64 Config.mulStrategy a b) } := rfl

/-- The high word of a product never reaches `2⁶⁴ − 1`, since the product is at most `(2⁶⁴ − 1)²` (R80). -/
theorem mul64_hi_le (st : MulStrategy) (a b : Word) : (mul64 st a b).hi.toNat ≤ 2 ^ 64 - 2 := by
  have hval := mul64_val st a b
  have hle := mul_words_le a b
  simp only [Value.val] at hval
  omega

/-- Settles O24: the answer is `mul64` of the configured strategy, whose value is the exact product by `mul64_val`. -/
theorem mul64IsExact : Obligations.Mul64IsExact := by
  unfold Obligations.Mul64IsExact
  refine ⟨fun _ => decodeCommand_mul64, fun a b s => ?_⟩
  exact ⟨mul64 Config.mulStrategy a b, mul64_val _ a b, mul64_hi_le _ a b, exec_mul64 a b s⟩

/-- The partial product of the low limbs is exact (R83, R84). -/
theorem limbs_p00_toNat (a b : Word) :
    (limbs a b).p00.toNat = a.toNat % 2 ^ 32 * (b.toNat % 2 ^ 32) := by
  rw [← low32_toNat, ← low32_toNat]
  exact mul32_toNat _ _ (low32_lt a) (low32_lt b)

/-- The partial product of the low limb of `a` and the high limb of `b` is exact (R83, R84). -/
theorem limbs_p01_toNat (a b : Word) :
    (limbs a b).p01.toNat = a.toNat % 2 ^ 32 * (b.toNat / 2 ^ 32) := by
  rw [← low32_toNat, ← high32_toNat]
  exact mul32_toNat _ _ (low32_lt a) (high32_lt b)

/-- The partial product of the high limb of `a` and the low limb of `b` is exact (R83, R84). -/
theorem limbs_p10_toNat (a b : Word) :
    (limbs a b).p10.toNat = a.toNat / 2 ^ 32 * (b.toNat % 2 ^ 32) := by
  rw [← high32_toNat, ← low32_toNat]
  exact mul32_toNat _ _ (high32_lt a) (low32_lt b)

/-- The partial product of the high limbs is exact (R83, R84). -/
theorem limbs_p11_toNat (a b : Word) :
    (limbs a b).p11.toNat = a.toNat / 2 ^ 32 * (b.toNat / 2 ^ 32) := by
  rw [← high32_toNat, ← high32_toNat]
  exact mul32_toNat _ _ (high32_lt a) (high32_lt b)

/-- Each partial product is at most `(2³² − 1)²` (R84). -/
theorem limbs_partial_le (a b : Word) :
    ∀ p ∈ [(limbs a b).p00, (limbs a b).p01, (limbs a b).p10, (limbs a b).p11],
      p.toNat ≤ 0xFFFFFFFE00000001 := by
  simp only [List.forall_mem_cons]
  exact ⟨mul32_le _ _ (low32_lt a) (low32_lt b), mul32_le _ _ (low32_lt a) (high32_lt b),
    mul32_le _ _ (high32_lt a) (low32_lt b), mul32_le _ _ (high32_lt a) (high32_lt b), List.forall_mem_nil _⟩

/-- The bound of `x` of R83 (R84). -/
theorem limbs_x_le (a b : Word) : (limbs a b).x.toNat ≤ 0x2FFFFFFFD := by
  have hp := limbs_partial_le a b
  simp only [List.forall_mem_cons] at hp
  obtain ⟨h00, -⟩ := hp
  rw [limbs_x_toNat]
  omega

/-- The bound of `y` of R83 (R84). -/
theorem limbs_y_le (a b : Word) : (limbs a b).y.toNat ≤ 0x2FFFFFFFF := by
  have hx := limbs_x_le a b
  have hp := limbs_partial_le a b
  simp only [List.forall_mem_cons] at hp
  obtain ⟨-, h01, h10, -⟩ := hp
  rw [limbs_y_toNat]
  omega

/-- The shift of the high half of `p11` loses nothing (R84). -/
theorem shl64_high32_toNat (p : Word) :
    (shl64 (high32 p) 32 (by decide)).toNat = p.toNat / 2 ^ 32 * 2 ^ 32 := by
  have := p.isLt
  rw [shl64_toNat, high32_toNat]
  omega

/-- `hi` of R83 is an exact sum: with `lo` below it, the unreduced sum would be the product, which has a high word
below `2⁶⁴` (R84, R85). -/
theorem limbs_hi_toNat (a b : Word) :
    (limbs a b).hi.toNat = (limbs a b).y.toNat + (limbs a b).p11.toNat / 2 ^ 32 * 2 ^ 32 := by
  have hhi : (limbs a b).hi.toNat
      = ((limbs a b).y.toNat + (limbs a b).p11.toNat / 2 ^ 32 * 2 ^ 32) % 2 ^ 64 := by
    show (add64 (limbs a b).y (shl64 (high32 (limbs a b).p11) 32 (by decide))).toNat = _
    rw [add64_toNat, shl64_high32_toNat]
  have hproduct := limbs_product a b
  have hle := mul_words_le a b
  have hx := limbs_x_toNat a b
  have hy := limbs_y_toNat a b
  rw [hhi]
  generalize a.toNat * b.toNat = m at *
  omega

/-- Settles O26: every word of the limb algorithm is the exact number its lemma gives, within the bound of R84. -/
theorem limbStepsNeverOverflow : Obligations.LimbStepsNeverOverflow := by
  unfold Obligations.LimbStepsNeverOverflow
  intro a b
  have hx := limbs_x_le a b
  refine ⟨limbs a b, rfl, limbs_p00_toNat a b, limbs_p01_toNat a b, limbs_p10_toNat a b, limbs_p11_toNat a b,
    ?partials, limbs_x_toNat a b, hx, ?carry, limbs_y_toNat a b, limbs_y_le a b, shl64_high32_toNat _,
    limbs_hi_toNat a b⟩
  case partials =>
    intro p hp
    have hle := limbs_partial_le a b p hp
    constructor <;> omega
  case carry => omega

/-- The multiplier is recognised by the number its pair stands for. -/
theorem mul64_eq_of_val {st : MulStrategy} {a b : Word} {v : Value} (h : v.val = a.toNat * b.toNat) :
    mul64 st a b = v :=
  Value.val_inj ((mul64_val st a b).trans h.symm)

/-- The multiplier is commutative (R88). -/
theorem mul64_comm (st : MulStrategy) (a b : Word) : mul64 st a b = mul64 st b a :=
  mul64_eq_of_val ((mul64_val st b a).trans (Nat.mul_comm _ _))

/-- A product with a power of two is the word shifted across the two words of the pair (R88). -/
theorem mul64_two_pow (st : MulStrategy) (a : Word) {k : Nat} (hpos : 1 ≤ k) (hk : k ≤ 63) :
    mul64 st a (BitVec.ofNat 64 (2 ^ k)) = ⟨shl64 a k hk, shr64 a (64 - k) (by omega)⟩ := by
  have hword : (BitVec.ofNat 64 (2 ^ k)).toNat = 2 ^ k := by
    rw [BitVec.toNat_ofNat]
    exact Nat.mod_eq_of_lt (Nat.pow_lt_pow_right (by decide) (by omega))
  have hsplit : (2 : Nat) ^ 64 = 2 ^ (64 - k) * 2 ^ k := by
    rw [← pow_add, Nat.sub_add_cancel (by omega)]
  have hhigh : a.toNat / 2 ^ (64 - k) = a.toNat * 2 ^ k / 2 ^ 64 := by
    rw [hsplit, Nat.mul_div_mul_right _ _ (Nat.two_pow_pos k)]
  apply mul64_eq_of_val
  rw [hword, Value.val, shl64_toNat, shr64_toNat, hhigh, Nat.mod_add_div]

/-- Settles O27: each law is the same law of the exact product of the numbers. -/
theorem multiplierLaws : Obligations.MultiplierLaws := by
  unfold Obligations.MultiplierLaws
  intro st
  refine ⟨mul64_comm st, fun a => ⟨mul64_eq_of_val rfl, mul64_eq_of_val ?one⟩,
    fun a k hpos hk => mul64_two_pow st a hpos hk, mul64_eq_of_val rfl, mul64_eq_of_val rfl⟩
  case one => exact (wordValue_val a).trans (Nat.mul_one _).symm

end Sys2Proof.Machine
end

section
/-! PROOFS. 41_shift.md: SHR (R92), both shifts in bits (R94), there and back (R95), and one after the other (R96). -/

namespace Sys2Proof

/-- Opcode 0x21 is SHR and takes `A` as a value and the low word of `B` as the amount (R57, R60). -/
theorem decodeCommand_shr {c : Command} (hop : c.op = 0x21#8) : decodeCommand c = .ok (.shr c.a c.bLo) :=
  decodeCommand_of_opcode hop (row := ⟨_, "SHR", .valueWord, _⟩) rfl

/-- A bit of a value is that bit of its number (R41). -/
theorem Value.getLsbD_bits (v : Value) (i : Nat) : v.bits.getLsbD i = v.val.testBit i := by
  rw [BitVec.getLsbD, v.bits_toNat]

end Sys2Proof

namespace Sys2Proof.Machine

/-- SHR answers with the shift by the whole word `n`, without flags, and changes nothing else (R92). -/
theorem exec_shr (a : Value) (n : Word) (s : State) :
    exec (.shr a n) s = .next { s with rsp := Rsp.answer (shr128 a n.toNat) } := rfl

/-- Settles O29: the answer is `shr128 a n.toNat`, whose value `shr128_val` gives for every amount. -/
theorem shiftRightDivides : Obligations.ShiftRightDivides := by
  unfold Obligations.ShiftRightDivides
  refine ⟨fun _ => decodeCommand_shr, fun a n s => ?_⟩
  exact ⟨shr128 a n.toNat, shr128_val a n.toNat, exec_shr a n s⟩

/-- A bit of SHL is the bit of the operand `n` places lower, and 0 below bit `n` (R94). -/
theorem getLsbD_shl128 (a : Value) (n : Nat) {i : Nat} (hi : i < 128) :
    (shl128 a n).bits.getLsbD i = if n ≤ i then a.bits.getLsbD (i - n) else false := by
  rw [Value.getLsbD_bits, shl128_val, Nat.testBit_mod_two_pow, Nat.testBit_mul_two_pow, Value.getLsbD_bits]
  by_cases h : n ≤ i <;> simp [h, hi]

/-- A bit of SHR is the bit of the operand `n` places higher, and 0 where that lies above bit 127 (R94). -/
theorem getLsbD_shr128 (a : Value) (n i : Nat) :
    (shr128 a n).bits.getLsbD i = if i + n ≤ 127 then a.bits.getLsbD (i + n) else false := by
  rw [Value.getLsbD_bits, shr128_val, Nat.testBit_div_two_pow, ← Value.getLsbD_bits, Nat.add_comm]
  split
  · rfl
  · exact BitVec.getLsbD_of_ge _ _ (by omega)

/-- Settles O30: the bits of the two answers, by `getLsbD_shl128` and `getLsbD_shr128`. -/
theorem shiftsMoveBits : Obligations.ShiftsMoveBits := by
  unfold Obligations.ShiftsMoveBits
  intro a n s
  exact ⟨_, _, exec_shl a n s, exec_shr a n s, fun i hi => ⟨getLsbD_shl128 a n.toNat hi, getLsbD_shr128 a n.toNat i⟩⟩

/-- Left then right keeps the low `128 − n` bits (R95). -/
theorem shr128_shl128_val (x : Value) (n : Nat) :
    (shr128 (shl128 x n) n).val = if n ≤ 128 then x.val % 2 ^ (128 - n) else 0 := by
  rw [shr128_val, shl128_val]
  split
  case isTrue h =>
    have hsplit : (2 : Nat) ^ 128 = 2 ^ (128 - n) * 2 ^ n := by rw [← pow_add, Nat.sub_add_cancel h]
    rw [hsplit, Nat.mul_mod_mul_right, Nat.mul_div_cancel _ (Nat.two_pow_pos n)]
  case isFalse h =>
    apply Nat.div_eq_of_lt
    calc x.val * 2 ^ n % 2 ^ 128
      _ < 2 ^ 128 := Nat.mod_lt _ (by decide)
      _ ≤ 2 ^ n := Nat.pow_le_pow_right (by decide) (by omega)

/-- Right then left clears the low `n` bits (R95). -/
theorem shl128_shr128_val (x : Value) (n : Nat) :
    (shl128 (shr128 x n) n).val = if n ≤ 128 then x.val - x.val % 2 ^ n else 0 := by
  have hdiv : x.val / 2 ^ n * 2 ^ n = x.val - x.val % 2 ^ n := Nat.div_mul_self_eq_mod_sub_self
  have hx := x.val_lt
  rw [shl128_val, shr128_val, hdiv, Nat.mod_eq_of_lt (by omega)]
  split
  case isTrue => rfl
  case isFalse h =>
    have hlt : x.val < 2 ^ n := hx.trans_le (Nat.pow_le_pow_right (by decide) (by omega))
    rw [Nat.mod_eq_of_lt hlt, Nat.sub_self]

/-- Left then right gives the value back exactly when no high bit is lost (R95). -/
theorem shr128_shl128_eq_iff (x : Value) {n : Nat} (h : n ≤ 128) :
    shr128 (shl128 x n) n = x ↔ x.val < 2 ^ (128 - n) := by
  have hval := shr128_shl128_val x n
  rw [if_pos h] at hval
  constructor
  · intro heq
    rw [heq] at hval
    rw [hval]
    exact Nat.mod_lt _ (Nat.two_pow_pos _)
  · intro hlt
    exact Value.val_inj (hval.trans (Nat.mod_eq_of_lt hlt))

/-- Right then left gives the value back exactly when the low `n` bits are 0 (R95). -/
theorem shl128_shr128_eq_iff (x : Value) {n : Nat} (h : n ≤ 128) :
    shl128 (shr128 x n) n = x ↔ x.val % 2 ^ n = 0 := by
  have hval := shl128_shr128_val x n
  have hle := Nat.mod_le x.val (2 ^ n)
  rw [if_pos h] at hval
  constructor
  · intro heq
    rw [heq] at hval
    omega
  · intro hzero
    exact Value.val_inj (by rw [hval, hzero, Nat.sub_zero])

/-- Settles O31: the four answers are `shl128` and `shr128` one after the other. -/
theorem shiftRoundTripLoss : Obligations.ShiftRoundTripLoss := by
  unfold Obligations.ShiftRoundTripLoss
  intro x n s
  exact ⟨_, _, _, _, exec_shl x n s, exec_shr _ n s, exec_shr x n s, exec_shl _ n s, shr128_shl128_val x n.toNat,
    shl128_shr128_val x n.toNat, fun h => ⟨shr128_shl128_eq_iff x h, shl128_shr128_eq_iff x h⟩⟩

/-- Two shifts to the left shift by the sum of the amounts (R96). -/
theorem shl128_shl128_val (x : Value) (m n : Nat) :
    (shl128 (shl128 x m) n).val = x.val * 2 ^ (m + n) % 2 ^ 128 := by
  rw [shl128_val, shl128_val, Nat.mod_mul_mod, Nat.mul_assoc, ← pow_add]

/-- Two shifts to the right shift by the sum of the amounts (R96). -/
theorem shr128_shr128_val (x : Value) (m n : Nat) :
    (shr128 (shr128 x m) n).val = x.val / 2 ^ (m + n) := by
  rw [shr128_val, shr128_val, Nat.div_div_eq_div_mul, ← pow_add]

/-- Settles O32, by `shl128_shl128_val` and `shr128_shr128_val`. -/
theorem shiftsCompose : Obligations.ShiftsCompose := by
  unfold Obligations.ShiftsCompose
  intro x m n s
  exact ⟨_, _, _, _, exec_shl x m s, exec_shl _ n s, exec_shr x m s, exec_shr _ n s,
    shl128_shl128_val x m.toNat n.toNat, shr128_shr128_val x m.toNat n.toNat⟩

end Sys2Proof.Machine
end

section
/-! PROOFS. 42_bitwise.md: the four operations in bits (R100). -/

namespace Sys2Proof.Machine

/-- Settles O34: each answer is a wordwise operation, whose 128 bits are the operation on the bits of the operands. -/
theorem logicIsBitwise : Obligations.LogicIsBitwise := by
  unfold Obligations.LogicIsBitwise
  intro a b s
  refine ⟨wordwise not64 a, wordwise₂ and64 a b, wordwise₂ or64 a b, wordwise₂ xor64 a b, rfl, rfl, rfl, rfl, ?bits,
    wordwise_not64_val a⟩
  case bits =>
    intro i hi
    simp [bits_wordwise_not64, bits_wordwise₂_and64, bits_wordwise₂_or64, bits_wordwise₂_xor64, hi]

end Sys2Proof.Machine
end

section
/-! PROOFS. 43_compare.md: CMP in numbers (R112) and with its operands exchanged (R113). -/

namespace Sys2Proof.Machine

/-- Settles O36: the flags are the decisions about the numbers, one-hot. -/
theorem compareIsNumericOrder : Obligations.CompareIsNumericOrder := by
  unfold Obligations.CompareIsNumericOrder
  intro a b s
  obtain ⟨hlt, heq, hgt⟩ := flags_eq_decide a b
  refine ⟨_, exec_cmp a b s, ?flags, order_flags_one_hot a b⟩
  case flags => rw [respondOrder, hlt, heq, hgt]

/-- Settles O37: `gt` is `lt` with the operands exchanged, and `eq` is symmetric. -/
theorem compareIsSymmetric : Obligations.CompareIsSymmetric := by
  unfold Obligations.CompareIsSymmetric
  intro a b s
  exact ⟨_, _, exec_cmp a b s, exec_cmp b a s, (valueGt_eq_valueLt a b).symm, valueGt_eq_valueLt b a,
    valueEq_comm b a⟩

end Sys2Proof.Machine
end

section
/-! PROOFS. 44_add.md: the carry test (R123) and the laws of addition (R124). -/

namespace Sys2Proof.Machine

/-- The sum of two words is below the second operand exactly when it wraps (R123). -/
theorem add64_lt_right_iff (p q : Word) : (add64 p q).toNat < q.toNat ↔ 2 ^ 64 ≤ p.toNat + q.toNat := by
  have hp := p.isLt
  have hq := q.isLt
  rw [add64_toNat]
  omega

/-- The sum of two words does not depend on their order. -/
theorem add64_comm (p q : Word) : add64 p q = add64 q p := by
  rw [add64, add64, Nat.add_comm]

/-- The sum of two words is below the first operand exactly when it wraps (R123). -/
theorem add64_lt_left_iff (p q : Word) : (add64 p q).toNat < p.toNat ↔ 2 ^ 64 ≤ p.toNat + q.toNat := by
  rw [add64_comm, add64_lt_right_iff, Nat.add_comm]

/-- When the sum of the high words wraps, adding the carry to it does not wrap again (R123). -/
theorem add64_add_carry_lt {x y : Word} (hwraps : 2 ^ 64 ≤ x.toNat + y.toNat) (p q : Word) :
    (add64 x y).toNat + (carryOf (add64 p q) q).toNat < 2 ^ 64 := by
  have hx := x.isLt
  have hy := y.isLt
  have hp := p.isLt
  have hq := q.isLt
  rw [add64_toNat, carryOf_toNat]
  omega

/-- Settles O40: a wrapped sum of two words is below both operands, and is at most `2⁶⁴ − 2`. -/
theorem carryTestIsCarryOut : Obligations.CarryTestIsCarryOut := by
  unfold Obligations.CarryTestIsCarryOut
  exact ⟨fun p q => ⟨add64_lt_right_iff p q, add64_lt_left_iff p q, carryOf_toNat p q⟩,
    fun a b hwraps => add64_add_carry_lt hwraps a.lo b.lo⟩

/-- The sum of two values does not depend on their order (R124). -/
theorem add128_comm (a b : Value) : add128 a b = add128 b a :=
  Value.val_inj (by rw [add128_val, add128_val, Nat.add_comm])

/-- The sum of three values does not depend on the grouping (R124). -/
theorem add128_assoc (a b c : Value) : add128 (add128 a b) c = add128 a (add128 b c) :=
  Value.val_inj (by simp only [add128_val, Nat.mod_add_mod, Nat.add_mod_mod, Nat.add_assoc])

/-- ZERO is the identity of the sum (R124). -/
theorem add128_zero (a : Value) : add128 a Value.zero = a :=
  Value.val_inj ((add128_val a Value.zero).trans (Nat.mod_eq_of_lt a.val_lt))

/-- The complement plus one is the inverse (R124). -/
theorem add128_not_add_one (a : Value) : add128 a (add128 (wordwise not64 a) Value.one) = Value.zero := by
  have ha := a.val_lt
  apply Value.val_inj
  calc (add128 a (add128 (wordwise not64 a) Value.one)).val
    _ = (a.val + (2 ^ 128 - 1 - a.val + 1)) % 2 ^ 128 := by
        rw [add128_val, add128_val, wordwise_not64_val, Value.val_one, Nat.add_mod_mod]
    _ = 2 ^ 128 % 2 ^ 128 := by congr 1; omega
    _ = 0 := Nat.mod_self _

/-- Settles O41: each law of ADD is the law of `add128`. -/
theorem additionLaws : Obligations.AdditionLaws := by
  unfold Obligations.AdditionLaws
  refine ⟨?commutative, ?associative, ?identity, ?inverse⟩
  case commutative =>
    intro a b s
    rw [exec_add, exec_add, add128_comm]
  case associative =>
    intro a b c s
    refine ⟨add128 a b, add128 b c, exec_add a b s, exec_add b c s, ?_⟩
    rw [exec_add, exec_add, add128_assoc]
  case identity =>
    intro a s
    rw [exec_add, add128_zero]
  case inverse =>
    intro a s
    refine ⟨wordwise not64 a, add128 (wordwise not64 a) Value.one, rfl, exec_add _ _ s, ?_⟩
    rw [exec_add, add128_not_add_one]

end Sys2Proof.Machine
end

section
/-! PROOFS. 45_mul128.md: MULW as MUL, MUL with its operands exchanged (R134), and MUL command by command (P1). -/

namespace Sys2Proof.Machine

/-- The product with a word is the product with the value `(W, 0)` (R134). -/
theorem mulWord_eq_mul128 (st : MulStrategy) (a : Value) (w : Word) :
    mulWord st a w = mul128 st a (wordValue w) :=
  Value.val_inj (by rw [mulWord_val, mul128_val, wordValue_val])

/-- The product of two values does not depend on their order (R134). -/
theorem mul128_comm (st : MulStrategy) (a b : Value) : mul128 st a b = mul128 st b a :=
  Value.val_inj (by rw [mul128_val, mul128_val, Nat.mul_comm])

/-- Settles O44, by `mulWord_eq_mul128` and `mul128_comm`. -/
theorem mulWordIsMulOfWord : Obligations.MulWordIsMulOfWord := by
  unfold Obligations.MulWordIsMulOfWord
  constructor
  · intro a w s
    rw [exec_mulw, mulWord_eq_mul128]
    exact (exec_mul a (wordValue w) s).symm
  · intro a b s
    rw [exec_mul, exec_mul, mul128_comm]

/-- SHL by 64 moves the low word to the high half (R91, R132). -/
theorem shl128_sixty_four (v : Value) : shl128 v (64#64).toNat = highValue v.lo := rfl

/-- Settles O46: SHL by 64 gives the high-half terms of R132, so the seven commands are the definition of `mul128`. -/
theorem mulEqualsItsCommands : Obligations.MulEqualsItsCommands := by
  unfold Obligations.MulEqualsItsCommands
  intro a b s
  refine ⟨_, _, _, _, _, _, _, exec_mul64 a.lo b.lo s, exec_mul64 a.lo b.hi s, exec_mul64 a.hi b.lo s,
    exec_shl _ 64#64 s, exec_shl _ 64#64 s, exec_add _ _ s, exec_add _ _ s, ?mul, ?value⟩
  case mul =>
    rw [shl128_sixty_four, shl128_sixty_four]
    exact exec_mul a b s
  case value => exact mul128_val Config.mulStrategy a b

end Sys2Proof.Machine
end

section
/-! PROOFS. 46_construct.md: the relations between the constructors (R146). -/

namespace Sys2Proof.Machine

/-- Settles O48: the answers on both sides are the same pair of words. -/
theorem constructorRelations : Obligations.ConstructorRelations := by
  unfold Obligations.ConstructorRelations
  intro s
  refine ⟨?_, ?_, ?_, ?_, ?_, fun w => ?_⟩
  · rw [exec_zero, exec_fromw]; rfl
  · rw [exec_zero, exec_fromp]; rfl
  · rw [exec_one, exec_fromw]; rfl
  · rw [exec_max, exec_fromp]; rfl
  · rw [exec_max, exec_not]; rfl
  · rw [exec_fromw, exec_fromp]; rfl

end Sys2Proof.Machine
end

section
/-! PROOFS. 30_encoding.md: the assembler (R65, R66) and the pseudo-instructions (R67). -/

namespace Sys2Proof

/-- Settles O19: a line has a row exactly when its name has a form, and the row places exactly the operands which that
form accepts. -/
theorem assemblerAcceptsWellFormedLines : Obligations.AssemblerAcceptsWellFormedLines := by
  unfold Obligations.AssemblerAcceptsWellFormedLines
  intro l
  have hform := rowNamed_form l.mnemonic
  rw [assemble, Line.wellFormed, ← hform]
  cases rowNamed (expandMnemonic l.mnemonic) with
  | none => rfl
  | some row => simp only [Option.bind_some, Option.map_some, Option.isSome_map, operandWords_isSome]

/-- A row of the opcode map is the row of its own mnemonic, which is no pseudo-instruction (R60, R67). -/
theorem rowNamed_row {row : OpcodeRow} (hrow : row ∈ opcodeTable) :
    rowNamed (expandMnemonic row.mnemonic) = some row := by
  have everyRow : ∀ r ∈ opcodeTable, rowNamed (expandMnemonic r.mnemonic) = some r := by
    simp [opcodeTable, expandMnemonic, pseudoNamed, rowNamed]
  exact everyRow row hrow

/-- A line under the mnemonic of a row is that row's opcode and the words of its operands (R66). -/
theorem assemble_row {row : OpcodeRow} (hrow : row ∈ opcodeTable) (ops : List Operand) :
    assemble ⟨row.mnemonic, ops⟩ =
      (operandWords row.form ops).map fun ab => ⟨row.op, ab.1.lo, ab.1.hi, ab.2.lo, ab.2.hi⟩ := by
  rw [assemble, rowNamed_row hrow, Option.bind_some]

/-- Settles O20: the line takes its opcode from the row, and its words are those that `operandWords` reads in
the row's form. -/
theorem assemblerPlacesOperands : Obligations.AssemblerPlacesOperands := by
  unfold Obligations.AssemblerPlacesOperands
  intro row hrow
  split
  next hform => rw [assemble_row hrow, hform]; rfl
  next hform =>
    intro w
    rw [assemble_row hrow, hform, operandWords, toWord_word]; rfl
  next hform =>
    intro x a hx
    rw [assemble_row hrow, hform, operandWords, toValue_of_standsFor hx]; rfl
  next hform =>
    intro v w
    rw [assemble_row hrow, hform, operandWords, toWord_word v, toWord_word w]; rfl
  next hform =>
    intro x a w hx
    rw [assemble_row hrow, hform, operandWords, toValue_of_standsFor hx, toWord_word]; rfl
  next hform =>
    intro x y a b hx hy
    rw [assemble_row hrow, hform, operandWords, toValue_of_standsFor hx, toValue_of_standsFor hy]; rfl

/-- A line assembles by the mnemonic that its name expands to (R67). -/
theorem assemble_congr {m m' : String} (h : expandMnemonic m = expandMnemonic m') (ops : List Operand) :
    assemble ⟨m, ops⟩ = assemble ⟨m', ops⟩ := by
  simp only [assemble, h]

end Sys2Proof

namespace Sys2Proof.Machine

/-- What the host reads after one CMP under each comparing pseudo-instruction is that comparison of the numbers (R67,
R112). -/
theorem reading_respondOrder (a b : Value) (s : State) :
    let p := (respondOrder (valueLt a b) (valueEq a b) (valueGt a b) s).rsp
    Pseudo.reading .eq p = some (decide (a.val = b.val)) ∧
    Pseudo.reading .lt p = some (decide (a.val < b.val)) ∧
    Pseudo.reading .gt p = some (decide (b.val < a.val)) ∧
    Pseudo.reading .ne p = some (decide (a.val ≠ b.val)) ∧
    Pseudo.reading .le p = some (decide (a.val ≤ b.val)) ∧
    Pseudo.reading .ge p = some (decide (b.val ≤ a.val)) := by
  obtain ⟨hlt, heq, hgt⟩ := flags_eq_decide a b
  simp only [Pseudo.reading, respondOrder_lt, respondOrder_eq, respondOrder_gt, hlt, heq, hgt,
    ← Bool.decide_or, Option.some.injEq, decide_eq_decide, true_and]
  refine ⟨?_, ?_, ?_⟩ <;> omega

/-- Settles O21: the names expand alike, and the readings are those of `reading_respondOrder`. -/
theorem pseudoComparisonsReadTheOrder : Obligations.PseudoComparisonsReadTheOrder := by
  unfold Obligations.PseudoComparisonsReadTheOrder
  refine ⟨fun ops => ⟨assemble_congr rfl ops, ?expansions⟩, ?names, fun _ => rfl, ?readings⟩
  case expansions =>
    have expandsToCmp : ∀ name ∈ ["EQ", "LT", "GT", "NE", "LE", "GE"],
        expandMnemonic name = expandMnemonic "CMP" := by decide
    exact fun name hname => assemble_congr (expandsToCmp name hname) ops
  case names => decide
  case readings => exact fun a b s => ⟨_, exec_cmp a b s, reading_respondOrder a b s⟩

end Sys2Proof.Machine
end

section
/-! PROOFS. 70_reset_and_hazards.md: the ticks of the block at its ports (R170, R173 to R175), which refine the step. -/

namespace Sys2Proof.Machine

/-- A tick with reset applied leaves the reset state (R170). -/
theorem tick_of_rst (latency : Opcode → Nat) {i : PortIn} (h : i.rst = true) (b : Block) :
    b.tick latency i = Block.reset := by
  simp only [Block.tick, h, if_true]

/-- A command is transferred exactly when one is offered, nothing is in flight and reset is not applied (R32). -/
theorem transfers_iff (b : Block) (i : PortIn) :
    b.transfers i = true ↔ i.cmdValid = true ∧ b.busy = none ∧ i.rst = false := by
  simp only [Block.transfers, Block.out, Bool.and_eq_true, Option.isNone_iff_eq_none, Bool.not_eq_true', and_assoc]

/-- A transfer starts the command (R174). -/
theorem tick_of_transfers (latency : Opcode → Nat) {i : PortIn} {b : Block} (h : b.transfers i = true) :
    b.tick latency i = b.accept i.cmd (latency i.cmd.op) := by
  obtain ⟨hvalid, hbusy, hrst⟩ := (transfers_iff b i).mp h
  simp [Block.tick, hvalid, hbusy, hrst]

/-- The four things a tick does: reset, progress of the command in flight, a transfer, or nothing (R170, R173 to
R175). -/
theorem tick_cases (latency : Opcode → Nat) (i : PortIn) (b : Block) :
    (i.rst = true ∧ b.tick latency i = Block.reset) ∨
    (i.rst = false ∧ b.transfers i = false ∧ ∃ f, b.busy = some f ∧ b.tick latency i = b.advance f) ∨
    (i.rst = false ∧ b.transfers i = true ∧ b.tick latency i = b.accept i.cmd (latency i.cmd.op)) ∨
    (i.rst = false ∧ b.transfers i = false ∧ b.tick latency i = b) := by
  cases hrst : i.rst with
  | true => exact .inl ⟨rfl, tick_of_rst latency hrst b⟩
  | false =>
    cases htransfers : b.transfers i with
    | true => exact .inr (.inr (.inl ⟨rfl, rfl, tick_of_transfers latency htransfers⟩))
    | false =>
      cases hbusy : b.busy with
      | some f => exact .inr (.inl ⟨rfl, rfl, f, rfl, by simp [Block.tick, hrst, hbusy]⟩)
      | none =>
        have hvalid : i.cmdValid = false := by
          simpa [Block.transfers, Block.out, hbusy, hrst] using htransfers
        exact .inr (.inr (.inr ⟨rfl, rfl, by simp [Block.tick, hrst, hbusy, hvalid]⟩))

/-- The command in flight leaves `RSP` alone until none of its latency is left (R173). -/
theorem advance_rsp_of_left_ne_zero {f : InFlight} (h : f.left ≠ 0) (b : Block) : (b.advance f).rsp = b.rsp := by
  obtain ⟨n, hn⟩ := Nat.exists_eq_succ_of_ne_zero h
  simp only [Block.advance, hn]

/-- A transfer leaves `RSP` alone unless the latency is 0 (R173). -/
theorem accept_rsp_of_latency_ne_zero (c : Command) {latency : Nat} (h : latency ≠ 0) (b : Block) :
    (b.accept c latency).rsp = b.rsp := by
  obtain ⟨n, rfl⟩ := Nat.exists_eq_succ_of_ne_zero h
  rfl

/-- Settles O3: of the four things a tick does, only reset, the last tick of a latency and a transfer of latency 0
write `RSP`. -/
theorem rspHoldsBetweenCommands : Obligations.RspHoldsBetweenCommands := by
  unfold Obligations.RspHoldsBetweenCommands
  refine ⟨fun q => rfl, fun latency i b hchange => ?_⟩
  rcases tick_cases latency i b with ⟨hrst, -⟩ | ⟨-, -, f, hbusy, htick⟩ | ⟨-, htransfers, htick⟩ | ⟨-, -, htick⟩
  · exact .inl hrst
  · rw [htick] at hchange
    refine .inr (.inl ⟨f, hbusy, ?_⟩)
    by_contra hleft
    exact hchange (advance_rsp_of_left_ne_zero hleft b)
  · rw [htick] at hchange
    refine .inr (.inr ⟨htransfers, ?_⟩)
    by_contra hlatency
    exact hchange (accept_rsp_of_latency_ne_zero i.cmd hlatency b)
  · exact absurd (congrArg Block.rsp htick) hchange

/-- Without an offered command the block stays in its reset state, with reset applied or not (R170, R173). -/
theorem ticks_reset_of_quiet (latency : Opcode → Nat) {later : List PortIn}
    (hquiet : ∀ j ∈ later, j.cmdValid = false) : Block.ticks latency later Block.reset = Block.reset := by
  induction later with
  | nil => rfl
  | cons j js ih =>
    obtain ⟨hj, hjs⟩ := List.forall_mem_cons.mp hquiet
    have htick : Block.reset.tick latency j = Block.reset := by
      rcases tick_cases latency j Block.reset with ⟨-, h⟩ | ⟨-, -, f, hbusy, -⟩ | ⟨-, htransfers, -⟩ | ⟨-, -, h⟩
      · exact h
      · cases hbusy
      · exact absurd (hj.symm.trans ((transfers_iff _ j).mp htransfers).1) Bool.false_ne_true
      · exact h
    rw [Block.ticks, htick, ih hjs]

/-- Settles O2: the reset event zeroes `RSP`, and the tick with reset leaves the reset state, whatever was in flight,
which quiet ticks keep. -/
theorem resetAppliesAtAnyTime : Obligations.ResetAppliesAtAnyTime := by
  unfold Obligations.ResetAppliesAtAnyTime
  constructor
  · intro q rest
    exact step_reset q rest
  · intro latency i b later hrst hquiet
    rw [Block.ticks, tick_of_rst latency hrst]
    exact ticks_reset_of_quiet latency hquiet

/-- With nothing in flight the settled response is `RSP`. -/
theorem settled_of_idle {b : Block} (h : b.busy = none) : b.settled = b.rsp := by
  simp only [Block.settled, h]

/-- Progress of the command in flight does not change what `RSP` settles to. -/
theorem settled_advance {b : Block} {f : InFlight} (h : b.busy = some f) : (b.advance f).settled = b.settled := by
  cases hleft : f.left <;> simp only [Block.advance, Block.settled, h, hleft]

/-- After a transfer `RSP` settles to the response of the command, whatever its latency. -/
theorem settled_accept (c : Command) (latency : Nat) (b : Block) :
    (b.accept c latency).settled = commandResponse c := by
  cases latency <;> exact responseTo_eq c b.rsp

/-- Running the step over the events of some ticks gives the `RSP` to which the block settles. -/
theorem run_events (latency : Opcode → Nat) (ins : List PortIn) (b : Block) :
    Host.Core.run core (Block.events latency ins b).length (⟨b.settled, Block.events latency ins b⟩ : State) =
      .next (⟨(Block.ticks latency ins b).settled, []⟩ : State) := by
  induction ins generalizing b with
  | nil => rfl
  | cons i is ih =>
    rw [Block.ticks, ← ih (b.tick latency i)]
    rcases tick_cases latency i b with ⟨hrst, htick⟩ | ⟨hrst, htransfers, f, hbusy, htick⟩ |
      ⟨hrst, htransfers, htick⟩ | ⟨hrst, htransfers, htick⟩
    · simp only [Block.events, hrst, htick, if_true]
      exact run_reset _ _ _
    · simp [Block.events, hrst, htransfers, htick, settled_advance hbusy]
    · simp only [Block.events, hrst, htransfers, htick, settled_accept, Bool.false_eq_true, if_false, if_true]
      exact run_command _ _ _ _
    · simp [Block.events, hrst, htransfers, htick]

/-- Settles O49, by `run_events`; with nothing in flight the block has settled. -/
theorem portsRefineTheStep : Obligations.PortsRefineTheStep := by
  unfold Obligations.PortsRefineTheStep
  intro latency ins b
  exact ⟨run_events latency ins b, settled_of_idle⟩

/-- For as long as its latency has not passed, a transferred command is in flight and `RSP` holds, whatever the
command ports carry (R173 to R175). -/
theorem ticks_of_transfer_before_latency {latency : Opcode → Nat} {b : Block} {i : PortIn} {later : List PortIn}
    (htransfers : b.transfers i = true) (hlen : later.length < latency i.cmd.op)
    (hrst : ∀ j ∈ later, j.rst = false) :
    Block.ticks latency (i :: later) b =
      ⟨b.rsp, some ⟨i.cmd, latency i.cmd.op - 1 - later.length⟩⟩ := by
  obtain ⟨n, hn⟩ := Nat.exists_eq_add_one_of_ne_zero (Nat.ne_zero_of_lt hlen)
  have haccept : b.tick latency i = ⟨b.rsp, some ⟨i.cmd, n⟩⟩ := by
    rw [tick_of_transfers latency htransfers, hn, Block.accept]
  rw [Block.ticks, haccept, ticks_in_flight latency i.cmd b.rsp n later (by omega) hrst, hn, Nat.add_sub_cancel]

/-- A command in flight with no latency left puts its response into `RSP` in the next tick (R175). -/
theorem tick_of_none_left (latency : Opcode → Nat) {j : PortIn} (hrst : j.rst = false) (c : Command) (p : Rsp) :
    Block.tick latency j ⟨p, some ⟨c, 0⟩⟩ = ⟨commandResponse c, none⟩ := by
  simp [Block.tick, hrst, Block.advance, responseTo_eq]

/-- Once its latency has passed, a transferred command has its response in `RSP` and nothing is in flight (R175). -/
theorem ticks_of_transfer_at_latency {latency : Opcode → Nat} {b : Block} {i : PortIn} {later : List PortIn}
    (htransfers : b.transfers i = true) (hlen : later.length = latency i.cmd.op)
    (hrst : ∀ j ∈ later, j.rst = false) :
    Block.ticks latency (i :: later) b = ⟨commandResponse i.cmd, none⟩ := by
  rcases later.eq_nil_or_concat with rfl | ⟨init, last, rfl⟩
  · rw [Block.ticks, tick_of_transfers latency htransfers, ← hlen]
    simp only [List.length_nil, Block.accept, responseTo_eq, Block.ticks]
  · simp only [List.concat_eq_append, List.length_append, List.length_singleton] at hlen
    simp only [List.concat_eq_append, List.forall_mem_append, List.forall_mem_singleton] at hrst
    obtain ⟨hinit, hlast⟩ := hrst
    have hleft : latency i.cmd.op - 1 - init.length = 0 := by omega
    rw [List.concat_eq_append, ← List.cons_append, ticks_append,
      ticks_of_transfer_before_latency htransfers (by omega) hinit, hleft]
    exact tick_of_none_left latency hlast i.cmd b.rsp

/-- Settles O50: after fewer ticks than the latency the command is in flight, and after as many its response stands. -/
theorem transferredCommandCompletes : Obligations.TransferredCommandCompletes := by
  unfold Obligations.TransferredCommandCompletes
  intro latency b i later htransfers hlen hrst
  constructor
  · intro k hk
    have htaken : (later.take k).length < latency i.cmd.op := by
      rw [List.length_take]; omega
    rw [ticks_of_transfer_before_latency htransfers htaken fun j hj => hrst j (List.mem_of_mem_take hj)]
    exact ⟨rfl, Bool.and_false _, rfl⟩
  · refine ⟨commandResponse i.cmd, step_command i.cmd b.rsp [], ?_⟩
    rw [ticks_of_transfer_at_latency htransfers hlen hrst]
    exact ⟨rfl, rfl, (Bool.and_true _).trans (commandResponse_valid i.cmd)⟩

end Sys2Proof.Machine
end

section
/-! PROOFS. 00_scope.md and 70_reset_and_hazards.md: the kind of reset (R9, R170). -/

namespace Sys2Proof.Machine

/-- Once the pin has been active for the minimum length, the block is in its reset state (R170). -/
theorem ticks_samplePins_of_pulse (kind : ResetKind) (latency : Opcode → Nat) (held : Nat) (b : Block)
    (before : List PinIn) {pulse : List PinIn} (hne : pulse ≠ []) (hlen : kind.minTicks ≤ pulse.length)
    (hactive : ∀ pin ∈ pulse, pin.rst = kind.activeLevel) :
    Block.ticks latency (samplePins kind held (before ++ pulse)) b = Block.reset := by
  obtain ⟨init, last, rfl⟩ := (pulse.eq_nil_or_concat).resolve_left hne
  simp only [List.concat_eq_append, List.length_append, List.length_singleton] at hlen
  simp only [List.concat_eq_append, List.forall_mem_append, List.forall_mem_singleton] at hactive
  obtain ⟨hinit, hlast⟩ := hactive
  have hheld : heldAfter kind held (before ++ init) = heldAfter kind held before + init.length := by
    rw [heldAfter, List.foldl_append]
    exact heldAfter_active kind _ init hinit
  rw [List.concat_eq_append, ← List.append_assoc, samplePins_append, ticks_append, samplePins, samplePins,
    Block.ticks, Block.ticks]
  apply tick_of_rst
  rw [hlast, resetHeld_active, hheld]
  exact resetApplies_of_le kind (Nat.succ_pos _) (by omega)

/-- While the pin is inactive no reset is applied (R170). -/
theorem samplePins_rst_of_inactive (kind : ResetKind) (held : Nat) {pins : List PinIn}
    (hinactive : ∀ pin ∈ pins, pin.rst ≠ kind.activeLevel) : ∀ i ∈ samplePins kind held pins, i.rst = false := by
  induction pins generalizing held with
  | nil => exact List.forall_mem_nil _
  | cons pin pins ih =>
    obtain ⟨hpin, hpins⟩ := List.forall_mem_cons.mp hinactive
    rw [samplePins, resetHeld_inactive kind hpin]
    exact List.forall_mem_cons.mpr ⟨resetApplies_zero kind, ih 0 hpins⟩

/-- The ports show the reset state in the tick itself exactly when reset is applied and asynchronous (R170). -/
theorem outDuring_eq (timing : ResetTiming) (i : PortIn) (b : Block) :
    b.outDuring timing i = if i.rst = true ∧ timing = .asynchronous then Block.reset.out else b.out := by
  cases timing <;> simp [Block.outDuring]

/-- Settles O54: a pulse of the minimum length, an inactive pin, and the ports in a tick with reset. -/
theorem resetKindChangesNoEffect : Obligations.ResetKindChangesNoEffect := by
  unfold Obligations.ResetKindChangesNoEffect
  intro kind latency held b
  exact ⟨fun before pulse hne hlen hactive => ticks_samplePins_of_pulse kind latency held b before hne hlen hactive,
    fun pins hinactive => samplePins_rst_of_inactive kind held hinactive, fun i => outDuring_eq kind.timing i b⟩

end Sys2Proof.Machine
end

section
/-! PROOFS. 30_encoding.md: the host script (R68). -/

namespace Sys2Proof.Machine

/-- Going to a label changes the line alone. -/
theorem jump_keeps {program : List ScriptLine} {label : String} {s t : ScriptState}
    (h : s.jump program label = .ok t) : t.block = s.block ∧ t.vars = s.vars := by
  unfold ScriptState.jump at h
  cases hline : findLabel label program 0 with
  | error e => rw [hline] at h; cases h
  | ok n => rw [hline] at h; cases h; exact ⟨rfl, rfl⟩

/-- Settles O51: the host's statements go to a label, to the next line, or end the run. -/
theorem hostStatementsKeepTheBlock : Obligations.HostStatementsKeepTheBlock := by
  unfold Obligations.HostStatementsKeepTheBlock
  intro program s t
  refine ⟨fun negated flag label h => ?branch, fun label h => jump_keeps h, fun h => ?halt⟩
  case branch =>
    simp only [Stmt.run] at h
    split at h
    · exact jump_keeps h
    · cases h; exact ⟨rfl, rfl⟩
  case halt => cases h; exact ⟨rfl, rfl⟩

/-- A variable that has just been assigned holds the value. -/
theorem find?_assignVar_same (name : String) (v : Value) (vars : List (String × Value)) :
    (assignVar name v vars).find? (fun p => p.1 == name) = some (name, v) := by
  simp [assignVar]

/-- Assigning a variable leaves every other variable what it held. -/
theorem find?_assignVar_of_ne {name other : String} (h : name ≠ other) (v : Value)
    (vars : List (String × Value)) :
    (assignVar name v vars).find? (fun p => p.1 == other) = vars.find? (fun p => p.1 == other) := by
  have hkept : ∀ p : String × Value, decide ((p.1 != name) = true ∧ (p.1 == other) = true) = (p.1 == other) := by
    intro p
    by_cases hp : p.1 = other <;> simp [hp, h.symm]
  rw [assignVar, List.find?_cons_of_neg (by simpa using h), List.find?_filter]
  simp only [hkept]

/-- The variables after a command: the destination, if there is one, holds the result. -/
def varsAfter (dest : Option String) (v : Value) (vars : List (String × Value)) : List (String × Value) :=
  match dest with
  | some name => assignVar name v vars
  | none => vars

/-- Issuing a command writes its response into `RSP`, goes to the next line and sets the destination. -/
theorem issue_eq (c : Command) (dest : Option String) (s : ScriptState) :
    s.issue c dest = .ok { s with
      block := ⟨commandResponse c, s.block.inputs⟩
      line := s.line + 1
      vars := varsAfter dest (commandResponse c).r s.vars } := by
  have hstep : step (present c s.block) = .next ⟨commandResponse c, s.block.inputs⟩ :=
    step_command c s.block.rsp s.block.inputs
  simp only [ScriptState.issue, hstep]
  rfl

/-- A command statement whose line assembles issues that command. -/
theorem run_command_stmt (program : List ScriptLine) {s : ScriptState} {mnemonic : String} {args : List Arg}
    {ops : List Operand} {c : Command} (dest : Option String) (hops : resolveArgs s args = .ok ops)
    (hassemble : assemble ⟨mnemonic, ops⟩ = some c) :
    Stmt.run program s (.command mnemonic args dest) = s.issue c dest := by
  simp only [Stmt.run, hops, Except.bind, hassemble]

/-- Settles O52: either statement issues its command, one step of the block, which sets the destination alone. -/
theorem scriptCommandIsOneStep : Obligations.ScriptCommandIsOneStep := by
  unfold Obligations.ScriptCommandIsOneStep
  intro program s c dest stmt hstmt
  have hrun : Stmt.run program s stmt = s.issue c dest := by
    rcases hstmt with rfl | ⟨mnemonic, args, ops, rfl, hops, hassemble⟩
    · rfl
    · exact run_command_stmt program dest hops hassemble
  refine ⟨commandResponse c, _, step_command c s.block.rsp s.block.inputs, hrun.trans (issue_eq c dest s), rfl, rfl,
    rfl, ?assigned, ?others, ?none⟩
  case assigned =>
    rintro name rfl
    simp only [ScriptState.get, varsAfter, find?_assignVar_same]
  case others =>
    intro other hother
    cases dest with
    | none => rfl
    | some name =>
      have hne : name ≠ other := fun h => hother (congrArg some h)
      simp only [ScriptState.get, varsAfter, find?_assignVar_of_ne hne]
  case none =>
    rintro rfl
    rfl

/-- A variable that has not been assigned holds no value (R68). -/
theorem get_of_unassigned {s : ScriptState} {name : String} (h : ∀ p ∈ s.vars, p.1 ≠ name) :
    s.get name = .error (.unassigned name) := by
  have hfind : s.vars.find? (fun p => p.1 == name) = none := by
    simpa [List.find?_eq_none] using h
  simp only [ScriptState.get, hfind]

/-- An operand that names an unassigned variable, whole or by a word, has no value (R68). -/
theorem resolve_of_unassigned {s : ScriptState} {name : String} (h : ∀ p ∈ s.vars, p.1 ≠ name) :
    ∀ a ∈ [Arg.var name, Arg.lo name, Arg.hi name], a.resolve s = .error (.unassigned name) := by
  have hget := get_of_unassigned h
  simp [Arg.resolve, hget, Except.map]

/-- Operands are resolved in order: the first one without a value stops them. -/
theorem resolveArgs_append_error {s : ScriptState} {before : List Arg} {xs : List Operand} {a : Arg} {e : ScriptStop}
    (hbefore : resolveArgs s before = .ok xs) (ha : a.resolve s = .error e) (after : List Arg) :
    resolveArgs s (before ++ a :: after) = .error e := by
  induction before generalizing xs with
  | nil => simp only [List.nil_append, resolveArgs, ha, Except.bind]
  | cons x rest ih =>
    unfold resolveArgs at hbefore
    cases hx : x.resolve s with
    | error e' => rw [hx] at hbefore; cases hbefore
    | ok y =>
      cases hrest : resolveArgs s rest with
      | error e' => rw [hx, hrest] at hbefore; cases hbefore
      | ok ys => simp only [List.cons_append, resolveArgs, hx, ih hrest, Except.bind, Except.map]

/-- Settles O53: the operands stop at the variable, and the command with them. -/
theorem unassignedVariableStopsScript : Obligations.UnassignedVariableStopsScript := by
  unfold Obligations.UnassignedVariableStopsScript
  intro program s mnemonic name before after xs dest hunassigned hbefore a ha
  have hstop := resolveArgs_append_error hbefore (resolve_of_unassigned hunassigned a ha) after
  simp only [Stmt.run, hstop, Except.bind]

end Sys2Proof.Machine
end
